-- ==== Sys2Proof/Word.lean ====
section
/-! DEFINITION. The value types of the block: bytes, instruction words, 12-bit addresses, and the finite index types
of its arrays (spec/00_scope.md R6, R9). -/

namespace Sys2Proof

/-- An 8-bit value: a general register, a timer, a memory byte, a framebuffer byte, a key byte (R6). -/
abbrev Byte := BitVec 8

/-- A 16-bit value: an instruction word, `pc`, `I`, a stack entry (R6). -/
abbrev Word := BitVec 16

/-- A 12-bit memory address, 0x000 to 0xFFF (R50). No access outside the memory can be written down (R54). -/
abbrev Addr := BitVec 12

/-- The index of a general register, 0 to 15 (R20, R74). -/
abbrev Reg := Fin 16

/-- The 4-bit row count of DXYN, 0 to 15 (R73). -/
abbrev RowCount := Fin 16

/-- A slot of the key matrix, 0 to 15 (R31). -/
abbrev Key := Fin 16

/-- A framebuffer column, 0 (left) to 63 (right) (R29). -/
abbrev Column := Fin 64

/-- A framebuffer row, 0 (top) to 31 (bottom) (R29). -/
abbrev Row := Fin 32

end Sys2Proof
end

