-- ==== Sys2Proof/Syntax.lean ====
section
/-! DEFINITION. The instructions: one constructor per row of spec/opcode_table.json, in the table's order
(spec/30_encoding.md R76). The operands are the fields of R71 that the row's format names (R72, R73, R74). -/

namespace Sys2Proof

/-- An instruction, as decoded. Words that match no row (R78, outside group 0) are no `Instr`; see `Decoded`. -/
inductive Instr where
  /-- 00E0: clear the framebuffer (R211). -/
  | cls
  /-- 00EE: return (R101). -/
  | ret
  /-- 0NNN other than 00E0 and 00EE: the unrecognized "call native code" (R302). -/
  | sys (nnn : Addr)
  /-- 1NNN: jump (R102). -/
  | jp (nnn : Addr)
  /-- 2NNN: call (R103). -/
  | call (nnn : Addr)
  /-- 3XNN: skip if VX = NN (R105). -/
  | seImm (x : Reg) (nn : Byte)
  /-- 4XNN: skip if VX ≠ NN (R106). -/
  | sneImm (x : Reg) (nn : Byte)
  /-- 5XY0: skip if VX = VY (R107). -/
  | seReg (x y : Reg)
  /-- 6XNN: VX := NN (R141). -/
  | ldImm (x : Reg) (nn : Byte)
  /-- 7XNN: VX := VX + NN, no flag (R142). -/
  | addImm (x : Reg) (nn : Byte)
  /-- 8XY0: VX := VY (R150). -/
  | ldReg (x y : Reg)
  /-- 8XY1: VX := VX OR VY (R151). -/
  | orReg (x y : Reg)
  /-- 8XY2: VX := VX AND VY (R152). -/
  | andReg (x y : Reg)
  /-- 8XY3: VX := VX XOR VY (R153). -/
  | xorReg (x y : Reg)
  /-- 8XY4: VX := VX + VY, VF := carry (R154). -/
  | addReg (x y : Reg)
  /-- 8XY5: VX := VX - VY, VF := not borrow (R155). -/
  | sub (x y : Reg)
  /-- 8XY6: VX := VX >> 1, VF := old bit 0; Y is encoded and ignored (R156). -/
  | shr (x y : Reg)
  /-- 8XY7: VX := VY - VX, VF := not borrow (R157). -/
  | subn (x y : Reg)
  /-- 8XYE: VX := VX << 1, VF := old bit 7; Y is encoded and ignored (R158). -/
  | shl (x y : Reg)
  /-- 9XY0: skip if VX ≠ VY (R108). -/
  | sneReg (x y : Reg)
  /-- ANNN: I := NNN (R180). -/
  | ldI (nnn : Addr)
  /-- BNNN: jump to NNN + V0 (R104). -/
  | jpV0 (nnn : Addr)
  /-- CXNN: VX := random byte AND NN (R146). -/
  | rnd (x : Reg) (nn : Byte)
  /-- DXYN: draw a sprite of N rows at (VX, VY) (R215). -/
  | drw (x y : Reg) (n : RowCount)
  /-- EX9E: skip if the key named by VX is pressed (R231). -/
  | skp (x : Reg)
  /-- EXA1: skip if the key named by VX is not pressed (R232). -/
  | sknp (x : Reg)
  /-- FX07: VX := DT (R233). -/
  | ldXDt (x : Reg)
  /-- FX0A: wait for a key, VX := key (R234). -/
  | ldXK (x : Reg)
  /-- FX15: DT := VX (R235). -/
  | ldDtX (x : Reg)
  /-- FX18: ST := VX (R236). -/
  | ldStX (x : Reg)
  /-- FX1E: I := I + VX (R181). -/
  | addIX (x : Reg)
  /-- FX29: I := font base + VX * 5 (R182). -/
  | ldFX (x : Reg)
  /-- FX33: BCD of VX into memory (R183). -/
  | ldBX (x : Reg)
  /-- FX55: store V0..VX (R184). -/
  | ldMemX (x : Reg)
  /-- FX65: load V0..VX (R185). -/
  | ldXMem (x : Reg)
deriving DecidableEq, Repr

end Sys2Proof
end

