-- ==== Sys2Proof/Decode.lean ====
section
/-! DEFINITION. Decoding of all 65536 words (spec/30_encoding.md R71, R77), the encoder written from the formats of R72,
and the opcode map of R76 as a list of rows. -/

namespace Sys2Proof

/-! ### Fields (R71) -/

/-- `op`: bits 15 to 12. -/
def fieldOp (w : Word) : BitVec 4 := w.extractLsb' 12 4

/-- `X`: bits 11 to 8, a register index. -/
def fieldX (w : Word) : Reg := (w.extractLsb' 8 4).toFin

/-- `Y`: bits 7 to 4, a register index. -/
def fieldY (w : Word) : Reg := (w.extractLsb' 4 4).toFin

/-- `N`: bits 3 to 0. -/
def fieldN (w : Word) : BitVec 4 := w.extractLsb' 0 4

/-- `NN`: bits 7 to 0. -/
def fieldNN (w : Word) : Byte := w.extractLsb' 0 8

/-- `NNN`: bits 11 to 0. -/
def fieldNNN (w : Word) : Addr := w.extractLsb' 0 12

/-! ### Decoding (R77) -/

/-- What the decoder makes of a word: an instruction, or the explicit unrecognized case, which carries the raw word
(R75, R78). -/
inductive Decoded where
  | instr (i : Instr)
  | unrecognized (w : Word)
deriving DecidableEq, Repr

/-- Group 0 (R77): CLS, RET, and every other word as SYS. -/
def decodeGroup0 (w : Word) : Decoded :=
  if w = 0x00E0#16 then .instr .cls
  else if w = 0x00EE#16 then .instr .ret
  else .instr (.sys (fieldNNN w))

/-- Group 8, by its low nibble (R77). -/
def decodeGroup8 (w : Word) : Decoded :=
  match (fieldN w).toNat with
  | 0x0 => .instr (.ldReg (fieldX w) (fieldY w))
  | 0x1 => .instr (.orReg (fieldX w) (fieldY w))
  | 0x2 => .instr (.andReg (fieldX w) (fieldY w))
  | 0x3 => .instr (.xorReg (fieldX w) (fieldY w))
  | 0x4 => .instr (.addReg (fieldX w) (fieldY w))
  | 0x5 => .instr (.sub (fieldX w) (fieldY w))
  | 0x6 => .instr (.shr (fieldX w) (fieldY w))
  | 0x7 => .instr (.subn (fieldX w) (fieldY w))
  | 0xE => .instr (.shl (fieldX w) (fieldY w))
  | _ => .unrecognized w

/-- Group E, by its low byte (R77). -/
def decodeGroupE (w : Word) : Decoded :=
  if fieldNN w = 0x9E#8 then .instr (.skp (fieldX w))
  else if fieldNN w = 0xA1#8 then .instr (.sknp (fieldX w))
  else .unrecognized w

/-- Group F, by its low byte (R77). -/
def decodeGroupF (w : Word) : Decoded :=
  if fieldNN w = 0x07#8 then .instr (.ldXDt (fieldX w))
  else if fieldNN w = 0x0A#8 then .instr (.ldXK (fieldX w))
  else if fieldNN w = 0x15#8 then .instr (.ldDtX (fieldX w))
  else if fieldNN w = 0x18#8 then .instr (.ldStX (fieldX w))
  else if fieldNN w = 0x1E#8 then .instr (.addIX (fieldX w))
  else if fieldNN w = 0x29#8 then .instr (.ldFX (fieldX w))
  else if fieldNN w = 0x33#8 then .instr (.ldBX (fieldX w))
  else if fieldNN w = 0x55#8 then .instr (.ldMemX (fieldX w))
  else if fieldNN w = 0x65#8 then .instr (.ldXMem (fieldX w))
  else .unrecognized w

/-- The decoder, total on all words (R75, R77). A word of group 0 other than CLS and RET is the row SYS of the opcode
table; its execution is the unrecognized case (R302), as R77's UNRECOGNIZED (notes/assumptions/18.md). -/
def decode (w : Word) : Decoded :=
  match (fieldOp w).toNat with
  | 0x0 => decodeGroup0 w
  | 0x1 => .instr (.jp (fieldNNN w))
  | 0x2 => .instr (.call (fieldNNN w))
  | 0x3 => .instr (.seImm (fieldX w) (fieldNN w))
  | 0x4 => .instr (.sneImm (fieldX w) (fieldNN w))
  | 0x5 => if fieldN w = 0#4 then .instr (.seReg (fieldX w) (fieldY w)) else .unrecognized w
  | 0x6 => .instr (.ldImm (fieldX w) (fieldNN w))
  | 0x7 => .instr (.addImm (fieldX w) (fieldNN w))
  | 0x8 => decodeGroup8 w
  | 0x9 => if fieldN w = 0#4 then .instr (.sneReg (fieldX w) (fieldY w)) else .unrecognized w
  | 0xA => .instr (.ldI (fieldNNN w))
  | 0xB => .instr (.jpV0 (fieldNNN w))
  | 0xC => .instr (.rnd (fieldX w) (fieldNN w))
  | 0xD => .instr (.drw (fieldX w) (fieldY w) (fieldN w).toFin)
  | 0xE => decodeGroupE w
  | _ => decodeGroupF w

/-- An instruction word from its two bytes: the byte at the lower address is bits 15 to 8 (R55, R56). -/
def wordOfBytes (hi lo : Byte) : Word := hi ++ lo

/-- Decoding the two bytes of an instruction, the one at the lower address first. -/
def decodeBytes (hi lo : Byte) : Decoded := decode (wordOfBytes hi lo)

/-! ### Encoding (R72) -/

/-- The four bits of a register index or row count. -/
def nibbleBits (x : Fin 16) : BitVec 4 := BitVec.ofFin x

/-- Format `nnn`. -/
def encodeNNN (op : BitVec 4) (nnn : Addr) : Word := op ++ nnn

/-- Formats `xnn` and `xs`: a register and a low byte (an immediate, or a sub-opcode). -/
def encodeXNN (op : BitVec 4) (x : Reg) (nn : Byte) : Word := op ++ nibbleBits x ++ nn

/-- Formats `xys` and `xyn`: two registers and a low nibble (a sub-opcode, or a row count). -/
def encodeXYN (op : BitVec 4) (x y : Reg) (n : BitVec 4) : Word := op ++ nibbleBits x ++ nibbleBits y ++ n

/-- The word of an instruction (R72, R76). -/
def encode : Instr → Word
  | .cls => 0x00E0#16
  | .ret => 0x00EE#16
  | .sys nnn => encodeNNN 0x0#4 nnn
  | .jp nnn => encodeNNN 0x1#4 nnn
  | .call nnn => encodeNNN 0x2#4 nnn
  | .seImm x nn => encodeXNN 0x3#4 x nn
  | .sneImm x nn => encodeXNN 0x4#4 x nn
  | .seReg x y => encodeXYN 0x5#4 x y 0x0#4
  | .ldImm x nn => encodeXNN 0x6#4 x nn
  | .addImm x nn => encodeXNN 0x7#4 x nn
  | .ldReg x y => encodeXYN 0x8#4 x y 0x0#4
  | .orReg x y => encodeXYN 0x8#4 x y 0x1#4
  | .andReg x y => encodeXYN 0x8#4 x y 0x2#4
  | .xorReg x y => encodeXYN 0x8#4 x y 0x3#4
  | .addReg x y => encodeXYN 0x8#4 x y 0x4#4
  | .sub x y => encodeXYN 0x8#4 x y 0x5#4
  | .shr x y => encodeXYN 0x8#4 x y 0x6#4
  | .subn x y => encodeXYN 0x8#4 x y 0x7#4
  | .shl x y => encodeXYN 0x8#4 x y 0xE#4
  | .sneReg x y => encodeXYN 0x9#4 x y 0x0#4
  | .ldI nnn => encodeNNN 0xA#4 nnn
  | .jpV0 nnn => encodeNNN 0xB#4 nnn
  | .rnd x nn => encodeXNN 0xC#4 x nn
  | .drw x y n => encodeXYN 0xD#4 x y (nibbleBits n)
  | .skp x => encodeXNN 0xE#4 x 0x9E#8
  | .sknp x => encodeXNN 0xE#4 x 0xA1#8
  | .ldXDt x => encodeXNN 0xF#4 x 0x07#8
  | .ldXK x => encodeXNN 0xF#4 x 0x0A#8
  | .ldDtX x => encodeXNN 0xF#4 x 0x15#8
  | .ldStX x => encodeXNN 0xF#4 x 0x18#8
  | .addIX x => encodeXNN 0xF#4 x 0x1E#8
  | .ldFX x => encodeXNN 0xF#4 x 0x29#8
  | .ldBX x => encodeXNN 0xF#4 x 0x33#8
  | .ldMemX x => encodeXNN 0xF#4 x 0x55#8
  | .ldXMem x => encodeXNN 0xF#4 x 0x65#8

/-! ### The opcode map (R76), read independently of the decoder -/

/-- The mnemonic of an instruction, as spec/opcode_table.json spells it. -/
def mnemonicOf : Instr → String
  | .cls => "CLS"
  | .ret => "RET"
  | .sys _ => "SYS"
  | .jp _ => "JP"
  | .call _ => "CALL"
  | .seImm _ _ => "SE_imm"
  | .sneImm _ _ => "SNE_imm"
  | .seReg _ _ => "SE_reg"
  | .ldImm _ _ => "LD_imm"
  | .addImm _ _ => "ADD_imm"
  | .ldReg _ _ => "LD_reg"
  | .orReg _ _ => "OR"
  | .andReg _ _ => "AND"
  | .xorReg _ _ => "XOR"
  | .addReg _ _ => "ADD_reg"
  | .sub _ _ => "SUB"
  | .shr _ _ => "SHR"
  | .subn _ _ => "SUBN"
  | .shl _ _ => "SHL"
  | .sneReg _ _ => "SNE_reg"
  | .ldI _ => "LD_I"
  | .jpV0 _ => "JP_V0"
  | .rnd _ _ => "RND"
  | .drw _ _ _ => "DRW"
  | .skp _ => "SKP"
  | .sknp _ => "SKNP"
  | .ldXDt _ => "LD_X_DT"
  | .ldXK _ => "LD_X_K"
  | .ldDtX _ => "LD_DT_X"
  | .ldStX _ => "LD_ST_X"
  | .addIX _ => "ADD_I_X"
  | .ldFX _ => "LD_F_X"
  | .ldBX _ => "LD_B_X"
  | .ldMemX _ => "LD_MEM_X"
  | .ldXMem _ => "LD_X_MEM"

/-- A row of the opcode map: the words `w` with `w AND mask = pattern`, less the words in `except` (the row 0NNN is "group
0 minus 00E0 and 00EE"). -/
structure OpcodeRow where
  mnemonic : String
  pattern : Word
  mask : Word
  except : List Word := []
deriving DecidableEq, Repr

/-- The word matches the row (R76). -/
def OpcodeRow.matchesWord (r : OpcodeRow) (w : Word) : Bool :=
  w &&& r.mask = r.pattern && !r.except.contains w

/-- Groups 0 to 7 of the opcode map. -/
def opcodeMapLow : List OpcodeRow :=
  [⟨"CLS", 0x00E0#16, 0xFFFF#16, []⟩, ⟨"RET", 0x00EE#16, 0xFFFF#16, []⟩,
   ⟨"SYS", 0x0000#16, 0xF000#16, [0x00E0#16, 0x00EE#16]⟩, ⟨"JP", 0x1000#16, 0xF000#16, []⟩,
   ⟨"CALL", 0x2000#16, 0xF000#16, []⟩, ⟨"SE_imm", 0x3000#16, 0xF000#16, []⟩, ⟨"SNE_imm", 0x4000#16, 0xF000#16, []⟩,
   ⟨"SE_reg", 0x5000#16, 0xF00F#16, []⟩, ⟨"LD_imm", 0x6000#16, 0xF000#16, []⟩, ⟨"ADD_imm", 0x7000#16, 0xF000#16, []⟩]

/-- Groups 8 to D of the opcode map. -/
def opcodeMapMid : List OpcodeRow :=
  [⟨"LD_reg", 0x8000#16, 0xF00F#16, []⟩, ⟨"OR", 0x8001#16, 0xF00F#16, []⟩, ⟨"AND", 0x8002#16, 0xF00F#16, []⟩,
   ⟨"XOR", 0x8003#16, 0xF00F#16, []⟩, ⟨"ADD_reg", 0x8004#16, 0xF00F#16, []⟩, ⟨"SUB", 0x8005#16, 0xF00F#16, []⟩,
   ⟨"SHR", 0x8006#16, 0xF00F#16, []⟩, ⟨"SUBN", 0x8007#16, 0xF00F#16, []⟩, ⟨"SHL", 0x800E#16, 0xF00F#16, []⟩,
   ⟨"SNE_reg", 0x9000#16, 0xF00F#16, []⟩, ⟨"LD_I", 0xA000#16, 0xF000#16, []⟩, ⟨"JP_V0", 0xB000#16, 0xF000#16, []⟩,
   ⟨"RND", 0xC000#16, 0xF000#16, []⟩, ⟨"DRW", 0xD000#16, 0xF000#16, []⟩]

/-- Groups E and F of the opcode map. -/
def opcodeMapHigh : List OpcodeRow :=
  [⟨"SKP", 0xE09E#16, 0xF0FF#16, []⟩, ⟨"SKNP", 0xE0A1#16, 0xF0FF#16, []⟩, ⟨"LD_X_DT", 0xF007#16, 0xF0FF#16, []⟩,
   ⟨"LD_X_K", 0xF00A#16, 0xF0FF#16, []⟩, ⟨"LD_DT_X", 0xF015#16, 0xF0FF#16, []⟩, ⟨"LD_ST_X", 0xF018#16, 0xF0FF#16, []⟩,
   ⟨"ADD_I_X", 0xF01E#16, 0xF0FF#16, []⟩, ⟨"LD_F_X", 0xF029#16, 0xF0FF#16, []⟩, ⟨"LD_B_X", 0xF033#16, 0xF0FF#16, []⟩,
   ⟨"LD_MEM_X", 0xF055#16, 0xF0FF#16, []⟩, ⟨"LD_X_MEM", 0xF065#16, 0xF0FF#16, []⟩]

/-- The opcode map of R76, all 35 rows. -/
def opcodeMap : List OpcodeRow := opcodeMapLow ++ opcodeMapMid ++ opcodeMapHigh

/-- The mnemonics of the rows a word matches. -/
def mapMnemonics (w : Word) : List String := (opcodeMap.filter (·.matchesWord w)).map (·.mnemonic)

/-- The mnemonic of the instruction a decoding answers, if it answers one. -/
def decodedMnemonics : Decoded → List String
  | .instr i => [mnemonicOf i]
  | .unrecognized _ => []

/-! ### The host's numbering of a word -/

/-- The 16-bit word whose low `nbits` bits are those of `w` and whose other bits are 0. -/
def tableWord (nbits w : Nat) : Word := BitVec.ofNat 16 (w % 2 ^ nbits)

/-- The byte at the lower address: bits 15 to 8 (R55). -/
def highByte (w : Word) : Byte := w.extractLsb' 8 8

/-- The byte at the higher address: bits 7 to 0 (R55). -/
def lowByte (w : Word) : Byte := w.extractLsb' 0 8

/-- The instruction the decoder reads from the two bytes of a table word, `none` where it answers the unrecognized case. -/
def decodeTableWord (nbits w : Nat) : Option Instr :=
  match decodeBytes (highByte (tableWord nbits w)) (lowByte (tableWord nbits w)) with
  | .instr i => some i
  | .unrecognized _ => none

end Sys2Proof
end

