-- ==== Sys2Proof/Config.lean ====
section
/-! DEFINITION. What the spec leaves to the implementation: the two named policies of spec/00_scope.md R7, and the free
value of CXNN's random byte. (The other arguments of R7 are launch values: Machine/Transactions.lean, `LaunchParams`.) -/

namespace Sys2Proof

/-- What an FX33 or FX55 does to a byte below 0x050 (spec/20_memory.md R61; decision D14 of the spec). -/
inductive FontWritePolicy where
  /-- The whole instruction is fatal and writes nothing (the spec's default). -/
  | fault
  /-- The byte is discarded, the instruction's other bytes are written. -/
  | drop
  /-- The byte is written like any other. -/
  | write
deriving DecidableEq, Repr

/-- The named arguments of R7 that a cycle reads. They are fixed at Reset (R360) and nothing writes them afterwards.
The defaults are the spec's (D11, D14; notes/assumptions/10.md). -/
structure Policy where
  /-- `font_write_policy` (R61). -/
  fontWrite : FontWritePolicy := .fault
  /-- `ldst_increments_i`: FX55 and FX65 leave `I` past the last byte (R184, R185). -/
  ldstIncrementsI : Bool := false
deriving DecidableEq, Repr

/-- FREE VALUE: the byte drawn by the n-th execution of CXNN since reset, under no law (spec/41_register_alu.md R146,
decision D15; notes/assumptions/4.md). It has no body: whatever is proved about the model holds for every draw. -/
opaque Config.rand8 : Nat → Byte

end Sys2Proof
end

