-- ==== Sys2Proof/Machine/State.lean ====
section
/-! DEFINITION. The state of the block as plain data (spec/10_state.md, the State record and R20 to R37), the statuses of a
Step (spec/60_exceptions.md R300), the reasons a step could stop, and the state after reset. -/

namespace Sys2Proof.Machine

/-- The status a Step returns, with what it carries (R300). -/
inductive Status where
  /-- Code 0: the instruction completed. -/
  | ok
  /-- Code 1: FX0A found no key pressed (R234). -/
  | keyWait
  /-- Code 2: an unrecognized word, which is carried (R301, R302). -/
  | unrecognized (word : Word)
  /-- Code 3, fatal: 2NNN with a full stack (R303). -/
  | stackOverflow (pc word : Word)
  /-- Code 4, fatal: 00EE with an empty stack (R304). -/
  | stackUnderflow (pc word : Word)
  /-- Code 5, fatal: FX33 or FX55 would write the font region under the policy `fault` (R307). -/
  | fontRegionWrite (pc word : Word) (addr : Addr)
  /-- Code 6: a Step while the fatal latch is set (R306). -/
  | halted
deriving DecidableEq, Repr

/-- The numeric code of a status (R300; the codes are labels no rule depends on, decision D2). -/
def Status.code : Status → Nat
  | .ok => 0
  | .keyWait => 1
  | .unrecognized _ => 2
  | .stackOverflow _ _ => 3
  | .stackUnderflow _ _ => 4
  | .fontRegionWrite _ _ _ => 5
  | .halted => 6

/-- The statuses of R300 whose column "fatal" says yes. -/
def Status.fatal : Status → Bool
  | .stackOverflow _ _ | .stackUnderflow _ _ | .fontRegionWrite _ _ _ => true
  | .ok | .keyWait | .unrecognized _ | .halted => false

/-- Why a step could stop WITHOUT a next state: there is no such reason, so the type has no constructor. Every case the
spec calls fatal has a state that follows it (`halted` set, everything else as before, R305) and Steps after it (R306), so
it is a next state whose `status` is fatal; nothing else is an exception (R308). Nobody raises a `Fault`, and that is safe
only because Safety.lean never counts a state with `halted` set as a good end (notes/assumptions/2.md and 3.md). -/
inductive Fault
deriving DecidableEq, Repr

/-- Why a transaction has no move. -/
inductive Refusal where
  /-- An instruction without a meaning. Raised by a refused arm of `exec` only; this model has none. Safe. -/
  | notModelled (mnemonic : String)
  /-- A `Load` below 0x200. Raised by `transact (.load a b)`; never by `step`. Safe: "has no move" (R361, D21). -/
  | loadBelowProgram (addr : Addr)
  /-- A `Load` after the first Step. Raised by `transact (.load a b)`; never by `step`. Safe: "has no move" (R361, D21). -/
  | loadAfterFirstStep (addr : Addr)
deriving DecidableEq, Repr

/-- The 4096-byte memory (spec/20_memory.md R50), as the list of the (address, byte) pairs that differ from what an
unlisted address reads as, addresses strictly rising. Read and written through Machine/Ops.lean only. -/
abbrev Memory := List Host.Cell

/-- The framebuffer, 32 rows of 64 bytes (R29). -/
abbrev Framebuffer := Vector (Vector Byte 64) 32

/-- The state of the block. -/
structure State where
  /-- V0 to VF (R20). -/
  v : Vector Byte 16
  /-- The index register `I` (R26). -/
  i : Word
  /-- The program counter (R23). -/
  pc : Word
  /-- `SP`, the number of stack entries held, 0 to 16 (R27). -/
  sp : Fin 17
  /-- The stack entries (R27). -/
  stack : Vector Word 16
  /-- The delay timer `DT` (R28). -/
  dt : Byte
  /-- The sound timer `ST` (R28). -/
  st : Byte
  /-- Memory (R50). -/
  mem : Memory
  /-- The framebuffer (R29). -/
  fb : Framebuffer
  /-- The key matrix, written by the host only (R31). -/
  keys : Vector Byte 16
  /-- The fatal latch (R34). -/
  halted : Bool
  /-- MODEL'S OWN: the status the last Step returned, `none` before the first Step (R300; notes/assumptions/1.md). -/
  status : Option Status
  /-- MODEL'S OWN: the named arguments of R7 that a cycle reads, fixed at Reset (notes/assumptions/10.md). -/
  policy : Policy
  /-- MODEL'S OWN: how many bytes CXNN has drawn; the next draw is the free value `Config.rand8 draws` (R146;
  notes/assumptions/4.md). -/
  draws : Nat
deriving DecidableEq, Repr

/-- The state after reset (R37, R350), under the spec's launch premise ZeroReset for what the spec leaves free: V, I, DT
and ST are 0 (notes/assumptions/5.md), memory lists nothing (6.md, 7.md), the stack entries (8.md) and the keys (9.md)
are 0. Machine/Transactions.lean has the launch for any parameters, `State.resetWith`. -/
def State.reset : State where
  v := Vector.replicate 16 0
  i := 0
  pc := 0x200
  sp := 0
  stack := Vector.replicate 16 0
  dt := 0
  st := 0
  mem := []
  fb := Vector.replicate 32 (Vector.replicate 64 0)
  keys := Vector.replicate 16 0
  halted := false
  status := none
  policy := {}
  draws := 0

end Sys2Proof.Machine
end

