-- ==== Sys2Proof/Machine/Flags.lean ====
section
/-! DEFINITION. The values the flag register VF takes (spec/41_register_alu.md R160, R161; spec/43_display.md R216), each
computed from operands as they were when the instruction began (spec/10_state.md R22). -/

namespace Sys2Proof.Machine

/-- The flag register VF (R20). -/
def vf : Reg := 15

/-- A flag as the byte written to VF: 1 or 0. -/
def flagByte (c : Bool) : Byte := if c then 1 else 0

/-- 8XY4: the unbounded sum exceeds 255 (R154). -/
def carryOut (a b : Byte) : Bool := a.toNat + b.toNat > 255

/-- 8XY5 and 8XY7: minuend at least subtrahend, equality included (R155, R157). -/
def noBorrow (minuend subtrahend : Byte) : Bool := minuend.toNat ≥ subtrahend.toNat

/-- 8XY6: the bit shifted out at the right (R156). -/
def shiftedOutRight (a : Byte) : Bool := a.getLsbD 0

/-- 8XYE: the bit shifted out at the left (R158). -/
def shiftedOutLeft (a : Byte) : Bool := a.getLsbD 7

/-- The pixel update: the new framebuffer byte, and whether a lit pixel was turned off (R216). -/
def pixelUpdate (p : Byte) (bit : Bool) : Byte × Bool :=
  if bit then (if p = 0 then (1, false) else (0, true)) else (p, false)

end Sys2Proof.Machine
end

