-- ==== Sys2Proof/Machine/Font.lean ====
section
/-! DEFINITION. The font region and the default `FONT` (spec/10_state.md R33, spec/20_memory.md R60). -/

namespace Sys2Proof.Machine

/-- The font region 0x000 to 0x04F (R60). -/
def isFontAddr (a : Addr) : Bool := a.toNat < 0x050

/-- Glyphs 0 to 7 of the default `FONT` (R33). PRESUMED: the spec marks these bytes as general knowledge
(notes/assumptions/7.md). -/
def fontGlyphsLow : List Byte :=
  [0xF0, 0x90, 0x90, 0x90, 0xF0, 0x20, 0x60, 0x20, 0x20, 0x70] ++
  [0xF0, 0x10, 0xF0, 0x80, 0xF0, 0xF0, 0x10, 0xF0, 0x10, 0xF0] ++
  [0x90, 0x90, 0xF0, 0x10, 0x10, 0xF0, 0x80, 0xF0, 0x10, 0xF0] ++
  [0xF0, 0x80, 0xF0, 0x90, 0xF0, 0xF0, 0x10, 0x20, 0x40, 0x40]

/-- Glyphs 8 to F of the default `FONT` (R33). PRESUMED, as the low glyphs. -/
def fontGlyphsHigh : List Byte :=
  [0xF0, 0x90, 0xF0, 0x90, 0xF0, 0xF0, 0x90, 0xF0, 0x10, 0xF0] ++
  [0xF0, 0x90, 0xF0, 0x90, 0x90, 0xE0, 0x90, 0xE0, 0x90, 0xE0] ++
  [0xF0, 0x80, 0x80, 0x80, 0xF0, 0xE0, 0x90, 0x90, 0x90, 0xE0] ++
  [0xF0, 0x80, 0xF0, 0x80, 0xF0, 0xF0, 0x80, 0xF0, 0x80, 0x80]

/-- The default `FONT`: 16 glyphs of 5 bytes, glyph `g` at bytes `5*g` to `5*g + 4` (R33). -/
def defaultFont : List Byte := fontGlyphsLow ++ fontGlyphsHigh

/-- What an address that the memory list does not name reads as: the default font byte below 0x050, 0 elsewhere
(DESIGN CHOICE for the free `mem_init`, R37; notes/assumptions/6.md). -/
def unlistedByte (a : Nat) : Byte := defaultFont.getD a 0

end Sys2Proof.Machine
end

