-- ==== Sys2Proof/Machine/Operands.lean ====
section
/-! DEFINITION. Operand forms: how an instruction forms an address, a jump target, a key index and a pixel coordinate from its
fields and the registers. -/

namespace Sys2Proof.Machine

/-- `a12(v)`: the 12-bit wrap of an address (spec/00_scope.md R10, spec/20_memory.md R54). -/
def a12 (v : Word) : Addr := v.setWidth 12

/-- `zext_16(a)`: an address as the 16-bit value written to `pc` or `I` (R10, R73). -/
def zext16 (a : Addr) : Word := a.setWidth 16

/-- The address of the `k`-th byte at the 16-bit base `b`: `a12(b + k)` (R54). -/
def addrAt (b : Word) (k : Nat) : Addr := a12 (b + BitVec.ofNat 16 k)

/-- `a12(pc + n)` as a `pc` value (spec/10_state.md R24). -/
def advancePc (pc : Word) (n : Nat) : Word := zext16 (addrAt pc n)

/-- The target of BNNN: `a12(NNN + V0)` (spec/40_control_flow.md R104). -/
def jumpV0Target (nnn : Addr) (v0 : Byte) : Word := zext16 (a12 (zext16 nnn + v0.setWidth 16))

/-- The value FX1E leaves in `I`: `a12(I + VX)` (spec/42_index_memory.md R181). -/
def indexPlus (i : Word) (vx : Byte) : Word := zext16 (addrAt i vx.toNat)

/-- The value FX29 leaves in `I`: `a12(0x000 + VX * 5)`, the font base being 0x000 (R182). -/
def glyphAddr (vx : Byte) : Word := zext16 (addrAt 0x000 (vx.toNat * 5))

/-- The key a register names: `VX AND 0x0F` (spec/44_keys_timers.md R230). -/
def keyIndex (vx : Byte) : Key := Fin.ofNat 16 (vx.toNat &&& 0x0F)

/-- The column of sprite bit `c` of a draw at `ox`: `(ox + c) mod 64` (spec/43_display.md R214). -/
def spriteColumn (ox : Byte) (c : Nat) : Column := Fin.ofNat 64 (ox.toNat + c)

/-- The framebuffer row of sprite row `r` of a draw at `oy`: `(oy + r) mod 32` (R214). -/
def spriteLine (oy : Byte) (r : Nat) : Row := Fin.ofNat 32 (oy.toNat + r)

/-- The bit of sprite byte `b` at column `c`: column 0 is bit 7 (R9, R215). -/
def spriteBit (b : Byte) (c : Nat) : Bool := b.getLsbD (7 - c)

/-- The three decimal digits of a byte, hundreds first (R183, R186). -/
def bcdDigits (b : Byte) : List Byte :=
  [BitVec.ofNat 8 (b.toNat / 100), BitVec.ofNat 8 (b.toNat / 10 % 10), BitVec.ofNat 8 (b.toNat % 10)]

end Sys2Proof.Machine
end

