-- ==== Sys2Proof/Machine/Ops.lean ====
section
/-! DEFINITION. The shared operations over memory, registers, the framebuffer and the ends of a cycle; taking an exception is
`raiseFatal` and `reportUnrecognized`. There is no return from an exception in this ISA (spec/60_exceptions.md R312). -/

namespace Sys2Proof.Machine

/-! ### Memory (spec/20_memory.md R52, R53) -/

/-- The byte a memory holds at an address. -/
def Memory.read : Memory → Nat → Byte
  | [], a => unlistedByte a
  | (b, v) :: m, a => if a = b then v else Memory.read m a

/-- Put a cell in front, unless it says what the address reads as anyway. -/
def Memory.cons (a : Nat) (v : Byte) (m : Memory) : Memory :=
  if v = unlistedByte a then m else (a, v) :: m

/-- The memory with one byte changed, in canonical form again. -/
def Memory.write : Memory → Nat → Byte → Memory
  | [], a, v => Memory.cons a v []
  | (b, u) :: m, a, v =>
    if a < b then Memory.cons a v ((b, u) :: m)
    else if a = b then Memory.cons a v m
    else (b, u) :: Memory.write m a v

/-- The addresses of a memory list are strictly rising from `lo` on and below 0x1000, and no entry says what an unlisted
address reads as. -/
def Memory.wfFrom : Nat → Memory → Bool
  | _, [] => true
  | lo, (a, v) :: m => decide (lo ≤ a) && decide (a < 0x1000) && decide (v ≠ unlistedByte a) && Memory.wfFrom (a + 1) m

/-- The canonical form of a memory list. -/
def Memory.wf (m : Memory) : Bool := Memory.wfFrom 0 m

/-- `MemRead(addr, 1)` (R52). -/
def State.memRead (s : State) (a : Addr) : Byte := Memory.read s.mem a.toNat

/-- A byte stored whatever the address: the loader (R361), and an instruction where the policy lets it. -/
def State.poke (s : State) (a : Addr) (b : Byte) : State := { s with mem := Memory.write s.mem a.toNat b }

/-- An instruction's byte write to this address takes effect: always from 0x050 on, below it under the policy `write`
only (R53, R61). Under `fault` an instruction checks before it writes anything (`fontViolation`), so the answer for that
policy is never used (notes/assumptions/17.md). -/
def writeLands (p : FontWritePolicy) (a : Addr) : Bool := !isFontAddr a || p = .write

/-- `MemWrite(addr, 1, v)` (R53). -/
def State.memWrite (s : State) (a : Addr) (b : Byte) : State :=
  if writeLands s.policy.fontWrite a then s.poke a b else s

/-- The instruction word at `P`: the byte at `a12(P)` high, the one at `a12(P + 1)` low (R55). -/
def State.fetch (s : State) (p : Word) : Word := wordOfBytes (s.memRead (addrAt p 0)) (s.memRead (addrAt p 1))

/-! ### Registers (spec/10_state.md R20) -/

/-- `V[x]`. -/
def State.reg (s : State) (x : Reg) : Byte := s.v[x]

/-- `V[x] <- b`. -/
def State.setReg (s : State) (x : Reg) (b : Byte) : State := { s with v := s.v.set x b }

/-- VF as a flag; every caller does this after its other writes (R22). -/
def State.setFlag (s : State) (c : Bool) : State := s.setReg vf (flagByte c)

/-- `I <- w`. -/
def State.setIndex (s : State) (w : Word) : State := { s with i := w }

/-- `DT <- b` (R28). -/
def State.setDelay (s : State) (b : Byte) : State := { s with dt := b }

/-- `ST <- b` (R28). -/
def State.setSound (s : State) (b : Byte) : State := { s with st := b }

/-- `pc <- w`. -/
def State.setPc (s : State) (w : Word) : State := { s with pc := w }

/-- The oracle draw that the next CXNN takes: a free value (R146). -/
def State.nextDraw (s : State) : Byte := Config.rand8 s.draws

/-- The state with that draw taken, so that the next execution draws afresh. -/
def State.takeDraw (s : State) : State := { s with draws := s.draws + 1 }

/-! ### Keys (R230) -/

/-- `pressed(k)`: the key's byte is nonzero. -/
def State.pressed (s : State) (k : Key) : Bool := s.keys[k] ≠ 0

/-- The least pressed key, if any (R234). -/
def State.leastPressed (s : State) : Option Key := (List.finRange 16).find? s.pressed

/-! ### Framebuffer (R29) -/

/-- `FB[y][x]` of a framebuffer. -/
def pixelOf (fb : Framebuffer) (y : Row) (x : Column) : Byte := fb[y][x]

/-- `FB[y][x] <- p`. -/
def setPixel (fb : Framebuffer) (y : Row) (x : Column) (p : Byte) : Framebuffer := fb.set y (fb[y].set x p)

/-- `FB[y][x]`. -/
def State.pixel (s : State) (y : Row) (x : Column) : Byte := pixelOf s.fb y x

/-- Byte `k` of the 2048-byte array: `FB[k / 64][k mod 64]` (R29, R315). -/
def State.fbByte (s : State) (k : Fin 2048) : Byte := s.pixel (Fin.ofNat 32 (k.val / 64)) (Fin.ofNat 64 k.val)

/-- The framebuffer with every byte 0 (R211). -/
def clearFramebuffer : Framebuffer := Vector.replicate 32 (Vector.replicate 64 0)

/-- One pixel of a draw: the framebuffer so far and the collision so far (R215, R216). -/
def drawPixel (ox oy : Byte) (r : Nat) (row : Byte) (d : Framebuffer × Bool) (c : Nat) : Framebuffer × Bool :=
  let q := pixelUpdate (pixelOf d.1 (spriteLine oy r) (spriteColumn ox c)) (spriteBit row c)
  (setPixel d.1 (spriteLine oy r) (spriteColumn ox c) q.1, d.2 || q.2)

/-- One row of a draw: columns 0 to 7, the most significant bit first (R215). -/
def drawRow (ox oy : Byte) (r : Nat) (row : Byte) (d : Framebuffer × Bool) : Framebuffer × Bool :=
  (List.range 8).foldl (drawPixel ox oy r row) d

/-- The rows of a draw, from sprite row `r` on (R215). -/
def drawRows (ox oy : Byte) : Nat → List Byte → Framebuffer × Bool → Framebuffer × Bool
  | _, [], d => d
  | r, row :: rest, d => drawRows ox oy (r + 1) rest (drawRow ox oy r row d)

/-- `n` consecutive bytes at the 16-bit base `b`, each address wrapped (R54, R58). -/
def State.bytesAt (s : State) (b : Word) (n : Nat) : List Byte := (List.range n).map fun k => s.memRead (addrAt b k)

/-! ### Ends of a cycle (spec/30_encoding.md R81) -/

/-- The Step returns this status. -/
def State.setStatus (s : State) (t : Status) : State := { s with status := some t }

/-- Go on at `target` with status Ok. -/
def transfer (target : Word) (s : State) : Host.Outcome State Fault Refusal := .next ((s.setPc target).setStatus .ok)

/-- `advance(2)`, status Ok. -/
def fallThrough (s : State) : Host.Outcome State Fault Refusal := transfer (advancePc s.pc 2) s

/-- `advance(4)` if the condition holds, else `advance(2)`; status Ok (spec/40_control_flow.md R100). -/
def skipIf (c : Bool) (s : State) : Host.Outcome State Fault Refusal := transfer (advancePc s.pc (if c then 4 else 2)) s

/-- `pc` unchanged, nothing written, status KeyWait (R234). -/
def holdForKey (s : State) : Host.Outcome State Fault Refusal := .next (s.setStatus .keyWait)

/-- TAKING A FATAL EXCEPTION (R305, R311): nothing is written, `pc` still holds the instruction's address, the latch is
set, the Step returns the status. There is no saved register, vector or mode. -/
def raiseFatal (t : Status) (s : State) : Host.Outcome State Fault Refusal := .next ({ s with halted := true }.setStatus t)

/-- TAKING THE UNRECOGNIZED EXCEPTION (R301): the raw word is reported and the block goes on 2 bytes further. -/
def reportUnrecognized (w : Word) (s : State) : Host.Outcome State Fault Refusal :=
  .next ((s.setPc (advancePc s.pc 2)).setStatus (.unrecognized w))

/-! ### Sequences of bytes at `I` (spec/42_index_memory.md R179) -/

/-- The first of `n` bytes at base `b` that lies in the font region; it is the lowest such address
(notes/assumptions/17.md). -/
def firstFontAddr (b : Word) (n : Nat) : Option Addr := ((List.range n).map (addrAt b)).find? isFontAddr

/-- The font address that makes a write of `n` bytes at `I` fatal: only under the policy `fault` (R61, R307). -/
def fontViolation (s : State) (n : Nat) : Option Addr :=
  if s.policy.fontWrite = .fault then firstFontAddr s.i n else none

/-- `MemWrite` of the bytes at `a12(b + k)`, `a12(b + k + 1)`, …, ascending (R58). -/
def storeFrom (b : Word) : Nat → List Byte → State → State
  | _, [], s => s
  | k, v :: vs, s => storeFrom b (k + 1) vs (s.memWrite (addrAt b k) v)

/-- `if ldst_increments_i then I <- a12(I + X + 1)` (R184, R185). -/
def bumpIndex (x : Reg) (s : State) : State :=
  if s.policy.ldstIncrementsI then s.setIndex (zext16 (addrAt s.i (x.val + 1))) else s

/-- The write of `bytes` at `I` by the instruction whose word is `w`: fatal as a whole, or done, with `finish` applied to
the state after the last byte (R183, R184). -/
def storeSequence (w : Word) (bytes : List Byte) (finish : State → State) (s : State) : Host.Outcome State Fault Refusal :=
  match fontViolation s bytes.length with
  | some a => raiseFatal (.fontRegionWrite s.pc w a) s
  | none => fallThrough (finish (storeFrom s.i 0 bytes s))

/-- V0 to VX, in order (R184). -/
def State.regsUpTo (s : State) (x : Reg) : List Byte := (List.range (x.val + 1)).map fun k => s.reg (Fin.ofNat 16 k)

/-- V0 to VX loaded from the bytes at `I`; the registers above VX unchanged (R185). -/
def State.loadRegs (s : State) (x : Reg) : State :=
  { s with v := Vector.ofFn fun k : Fin 16 => if k ≤ x then s.memRead (addrAt s.i k.val) else s.v[k] }

end Sys2Proof.Machine
end

