-- ==== Sys2Proof/Machine/Alu.lean ====
section
/-! DEFINITION. Register loads and the ALU (spec/41_register_alu.md). Every flag instruction computes from the old values,
writes VX, then writes VF (R22, R140). -/

namespace Sys2Proof.Machine

/-- 6XNN (R141). -/
def execLdImm (x : Reg) (nn : Byte) (s : State) : Host.Outcome State Fault Refusal := fallThrough (s.setReg x nn)

/-- 7XNN: 8-bit wrap, no flag (R142). -/
def execAddImm (x : Reg) (nn : Byte) (s : State) : Host.Outcome State Fault Refusal :=
  fallThrough (s.setReg x (s.reg x + nn))

/-- CXNN: one fresh draw, a free value, AND NN (R146). -/
def execRnd (x : Reg) (nn : Byte) (s : State) : Host.Outcome State Fault Refusal :=
  fallThrough (s.takeDraw.setReg x (s.nextDraw &&& nn))

/-- 8XY0 (R150). -/
def execLdReg (x y : Reg) (s : State) : Host.Outcome State Fault Refusal := fallThrough (s.setReg x (s.reg y))

/-- 8XY1 (R151). -/
def execOrReg (x y : Reg) (s : State) : Host.Outcome State Fault Refusal := fallThrough (s.setReg x (s.reg x ||| s.reg y))

/-- 8XY2 (R152). -/
def execAndReg (x y : Reg) (s : State) : Host.Outcome State Fault Refusal := fallThrough (s.setReg x (s.reg x &&& s.reg y))

/-- 8XY3 (R153). -/
def execXorReg (x y : Reg) (s : State) : Host.Outcome State Fault Refusal := fallThrough (s.setReg x (s.reg x ^^^ s.reg y))

/-- 8XY4 (R154). -/
def execAddReg (x y : Reg) (s : State) : Host.Outcome State Fault Refusal :=
  fallThrough ((s.setReg x (s.reg x + s.reg y)).setFlag (carryOut (s.reg x) (s.reg y)))

/-- 8XY5 (R155). -/
def execSub (x y : Reg) (s : State) : Host.Outcome State Fault Refusal :=
  fallThrough ((s.setReg x (s.reg x - s.reg y)).setFlag (noBorrow (s.reg x) (s.reg y)))

/-- 8XY6: VX shifted right by one; VY neither read nor written (R156). -/
def execShr (x _y : Reg) (s : State) : Host.Outcome State Fault Refusal :=
  fallThrough ((s.setReg x (s.reg x >>> 1)).setFlag (shiftedOutRight (s.reg x)))

/-- 8XY7 (R157). -/
def execSubn (x y : Reg) (s : State) : Host.Outcome State Fault Refusal :=
  fallThrough ((s.setReg x (s.reg y - s.reg x)).setFlag (noBorrow (s.reg y) (s.reg x)))

/-- 8XYE: VX shifted left by one; VY neither read nor written (R158). -/
def execShl (x _y : Reg) (s : State) : Host.Outcome State Fault Refusal :=
  fallThrough ((s.setReg x (s.reg x <<< 1)).setFlag (shiftedOutLeft (s.reg x)))

end Sys2Proof.Machine
end

