-- ==== Sys2Proof/Machine/Control.lean ====
section
/-! DEFINITION. Control flow: return, jumps, call and the register skips (spec/40_control_flow.md). -/

namespace Sys2Proof.Machine

/-- 00EE: pop the stack into `pc`, the popped value used as is; fatal when the stack is empty (R101, R304;
notes/assumptions/16.md). -/
def execRet (s : State) : Host.Outcome State Fault Refusal :=
  if h : s.sp.val = 0 then raiseFatal (.stackUnderflow s.pc (encode .ret)) s
  else transfer (s.stack[s.sp.val - 1]'(by omega)) { s with sp := ⟨s.sp.val - 1, by omega⟩ }

/-- 1NNN: `pc <- NNN` (R102). -/
def execJp (nnn : Addr) (s : State) : Host.Outcome State Fault Refusal := transfer (zext16 nnn) s

/-- 2NNN: push `a12(pc + 2)`, jump; fatal when 16 addresses are held (R103, R303). -/
def execCall (nnn : Addr) (s : State) : Host.Outcome State Fault Refusal :=
  if h : s.sp.val = 16 then raiseFatal (.stackOverflow s.pc (encode (.call nnn))) s
  else transfer (zext16 nnn)
    { s with stack := s.stack.set s.sp.val (advancePc s.pc 2) (by omega), sp := ⟨s.sp.val + 1, by omega⟩ }

/-- BNNN: `pc <- a12(NNN + V0)` (R104). -/
def execJpV0 (nnn : Addr) (s : State) : Host.Outcome State Fault Refusal := transfer (jumpV0Target nnn (s.reg 0)) s

/-- 3XNN (R105). -/
def execSeImm (x : Reg) (nn : Byte) (s : State) : Host.Outcome State Fault Refusal := skipIf (s.reg x = nn) s

/-- 4XNN (R106). -/
def execSneImm (x : Reg) (nn : Byte) (s : State) : Host.Outcome State Fault Refusal := skipIf (s.reg x ≠ nn) s

/-- 5XY0 (R107). -/
def execSeReg (x y : Reg) (s : State) : Host.Outcome State Fault Refusal := skipIf (s.reg x = s.reg y) s

/-- 9XY0 (R108). -/
def execSneReg (x y : Reg) (s : State) : Host.Outcome State Fault Refusal := skipIf (s.reg x ≠ s.reg y) s

end Sys2Proof.Machine
end

