-- ==== Sys2Proof/Machine/Display.lean ====
section
/-! DEFINITION. Framebuffer clear and the sprite XOR unit (spec/43_display.md). -/

namespace Sys2Proof.Machine

/-- 00E0: every framebuffer byte 0; VF not written (R211). -/
def execCls (s : State) : Host.Outcome State Fault Refusal := fallThrough { s with fb := clearFramebuffer }

/-- The framebuffer and the collision that a draw of `n` rows at (VX, VY) leaves; everything is read before any write
(R214, R215). -/
def drawResult (x y : Reg) (n : RowCount) (s : State) : Framebuffer × Bool :=
  drawRows (s.reg x) (s.reg y) 0 (s.bytesAt s.i n.val) (s.fb, false)

/-- DXYN: draw, then VF := collision as the last effect; `I` unchanged (R215). -/
def execDrw (x y : Reg) (n : RowCount) (s : State) : Host.Outcome State Fault Refusal :=
  fallThrough ({ s with fb := (drawResult x y n s).1 }.setFlag (drawResult x y n s).2)

end Sys2Proof.Machine
end

