-- ==== Sys2Proof/Machine/Index.lean ====
section
/-! DEFINITION. The index register, the BCD converter, bulk store and load (spec/42_index_memory.md). -/

namespace Sys2Proof.Machine

/-- ANNN: `I <- zext_16(NNN)` (R180). -/
def execLdI (nnn : Addr) (s : State) : Host.Outcome State Fault Refusal := fallThrough (s.setIndex (zext16 nnn))

/-- FX1E: `I <- a12(I + VX)`, no flag (R181). -/
def execAddIX (x : Reg) (s : State) : Host.Outcome State Fault Refusal :=
  fallThrough (s.setIndex (indexPlus s.i (s.reg x)))

/-- FX29: `I <- a12(VX * 5)`, the whole register used (R182). -/
def execLdFX (x : Reg) (s : State) : Host.Outcome State Fault Refusal := fallThrough (s.setIndex (glyphAddr (s.reg x)))

/-- FX33: three decimal digits at `I`, `I + 1`, `I + 2`; `I` unchanged (R183). -/
def execLdBX (x : Reg) (s : State) : Host.Outcome State Fault Refusal :=
  storeSequence (encode (.ldBX x)) (bcdDigits (s.reg x)) id s

/-- FX55: V0 to VX at `I` upward (R184). -/
def execLdMemX (x : Reg) (s : State) : Host.Outcome State Fault Refusal :=
  storeSequence (encode (.ldMemX x)) (s.regsUpTo x) (bumpIndex x) s

/-- FX65: V0 to VX from `I` upward (R185). -/
def execLdXMem (x : Reg) (s : State) : Host.Outcome State Fault Refusal := fallThrough (bumpIndex x (s.loadRegs x))

end Sys2Proof.Machine
end

