-- ==== Sys2Proof/Machine/KeysTimers.lean ====
section
/-! DEFINITION. Key matrix and timer instructions (spec/44_keys_timers.md). -/

namespace Sys2Proof.Machine

/-- EX9E: skip if the key `VX AND 0x0F` is pressed (R231). -/
def execSkp (x : Reg) (s : State) : Host.Outcome State Fault Refusal := skipIf (s.pressed (keyIndex (s.reg x))) s

/-- EXA1: skip if it is not pressed (R232). -/
def execSknp (x : Reg) (s : State) : Host.Outcome State Fault Refusal := skipIf (!s.pressed (keyIndex (s.reg x))) s

/-- FX07: `VX <- DT` (R233). -/
def execLdXDt (x : Reg) (s : State) : Host.Outcome State Fault Refusal := fallThrough (s.setReg x s.dt)

/-- FX0A: VX := the least pressed key, or hold (R234). -/
def execLdXK (x : Reg) (s : State) : Host.Outcome State Fault Refusal :=
  match s.leastPressed with
  | some k => fallThrough (s.setReg x (BitVec.ofNat 8 k.val))
  | none => holdForKey s

/-- FX15: `DT <- VX` (R235). -/
def execLdDtX (x : Reg) (s : State) : Host.Outcome State Fault Refusal := fallThrough (s.setDelay (s.reg x))

/-- FX18: `ST <- VX` (R236). -/
def execLdStX (x : Reg) (s : State) : Host.Outcome State Fault Refusal := fallThrough (s.setSound (s.reg x))

end Sys2Proof.Machine
end

