-- ==== Sys2Proof/Machine/System.lean ====
section
/-! DEFINITION. The row SYS (spec/60_exceptions.md R302). -/

namespace Sys2Proof.Machine

/-- 0NNN: exactly the unrecognized case, R301 (R302). -/
def execSys (nnn : Addr) (s : State) : Host.Outcome State Fault Refusal := reportUnrecognized (encode (.sys nnn)) s

end Sys2Proof.Machine
end

