-- ==== Sys2Proof/Machine/Step.lean ====
section
/-! DEFINITION. One cycle (spec/30_encoding.md R80), and the host's placing of an instruction where the next cycle fetches. -/

namespace Sys2Proof.Machine

/-- Fetch, decode, execute (R80): while halted nothing happens but the status Halted (R306); an unrecognized word is
reported (R301). -/
def step (s : State) : Host.Outcome State Fault Refusal :=
  if s.halted then .next (s.setStatus .halted)
  else
    match decode (s.fetch s.pc) with
    | .instr i => exec i s
    | .unrecognized w => reportUnrecognized w s

/-- The state whose next step fetches and runs the table word `w`: its two bytes stored at `pc`, the byte at the lower
address first (R55), and the latch cleared, since a halted block fetches nothing (notes/assumptions/13.md). -/
def State.withFetchWord (s : State) (nbits w : Nat) : State :=
  { (s.poke (addrAt s.pc 0) (highByte (tableWord nbits w))).poke (addrAt s.pc 1) (lowByte (tableWord nbits w)) with
    halted := false }

end Sys2Proof.Machine
end

