-- ==== Sys2Proof/Machine/Transactions.lean ====
section
/-! DEFINITION. The host's transactions (spec/70_reset_and_hazards.md R360 to R366): what the outside world can do to the
block, one at a time, between cycles. `step` itself holds none of them (notes/assumptions/12.md). -/

namespace Sys2Proof.Machine

/-- The parameters of `Reset` (spec/00_scope.md R7), less `image`, which the loader writes afterwards (R351, R361), and
`rand8`, the free value `Config.rand8`. Every field may have any value; the defaults are the spec's, and for what the
spec leaves free the premise ZeroReset (R37). -/
structure LaunchParams where
  /-- `FONT`, 80 bytes; byte `k` at address `k` (R33). -/
  font : Vector Byte 80 := Vector.ofFn fun k => unlistedByte k.val
  /-- `font_write_policy` and `ldst_increments_i`. -/
  policy : Policy := {}
  /-- `reg_init`. -/
  regInit : Vector Byte 16 := Vector.replicate 16 0
  /-- `i_init`, any 16 bits. -/
  iInit : Word := 0
  /-- `dt_init`. -/
  dtInit : Byte := 0
  /-- `st_init`. -/
  stInit : Byte := 0
  /-- `mem_init`: the bytes that are not 0, as (address, byte) pairs, a later pair winning; only addresses from 0x050 on
  have a meaning. -/
  memInit : List (Addr × Byte) := []
  /-- The key matrix before the host's first write (R37: whatever the host writes). -/
  keysInit : Vector Byte 16 := Vector.replicate 16 0
  /-- The stack entries, unspecified and never read before written (R37). -/
  stackInit : Vector Word 16 := Vector.replicate 16 0
deriving DecidableEq, Repr

/-- The font bytes stored from address `k` on (R351 step 1). -/
def placeFont : Nat → List Byte → Memory → Memory
  | _, [], m => m
  | k, b :: bs, m => placeFont (k + 1) bs (Memory.write m k b)

/-- The bytes of `mem_init` stored; those aimed at the font region have no meaning and are left out (R7). -/
def placeMemInit (cells : List (Addr × Byte)) (m : Memory) : Memory :=
  cells.foldl (fun m c => if isFontAddr c.1 then m else Memory.write m c.1.toNat c.2) m

/-- The state after `Reset` with these parameters (R37, R350). -/
def State.resetWith (p : LaunchParams) : State where
  v := p.regInit
  i := p.iInit
  pc := 0x200
  sp := 0
  stack := p.stackInit
  dt := p.dtInit
  st := p.stInit
  mem := placeMemInit p.memInit (placeFont 0 p.font.toList [])
  fb := clearFramebuffer
  keys := p.keysInit
  halted := false
  status := none
  policy := p.policy
  draws := 0

/-- A timer decremented toward 0 and clamped there (R364). -/
def decrementTimer (t : Byte) : Byte := if t.toNat > 0 then t - 1 else 0

/-- `TimerTick`: both timers (R364). -/
def State.timerTick (s : State) : State := { s with dt := decrementTimer s.dt, st := decrementTimer s.st }

/-- `SetKeys(k)` (R363). -/
def State.setKeys (s : State) (k : Vector Byte 16) : State := { s with keys := k }

/-- `Load(addr, b)`: from 0x200 on and before the first Step; otherwise no move (R361). -/
def State.load (s : State) (a : Addr) (b : Byte) : Host.Outcome State Fault Refusal :=
  if a.toNat < 0x200 then .refused (.loadBelowProgram a)
  else if s.status.isSome then .refused (.loadAfterFirstStep a)
  else .next (s.poke a b)

/-- The transactions of R360. -/
inductive Transaction where
  | reset (p : LaunchParams)
  | load (a : Addr) (b : Byte)
  | setKeys (k : Vector Byte 16)
  | timerTick
  | step
  | read
deriving DecidableEq, Repr

/-- The effect of a transaction. `Read` returns the whole state, which it leaves as it is (R360, R366). A `Reset` in the
middle of a run does not take the draws of CXNN back: the next one is fresh (R146; notes/assumptions/4.md). -/
def transact (t : Transaction) (s : State) : Host.Outcome State Fault Refusal :=
  match t with
  | .reset p => .next { State.resetWith p with draws := s.draws }
  | .load a b => s.load a b
  | .setKeys k => .next (s.setKeys k)
  | .timerTick => .next s.timerTick
  | .step => step s
  | .read => .next s

/-- An image loaded at `a` upward, byte by byte (R351 step 2, R353): refused as soon as one byte has no move; an image
that would run past 0xFFF wraps to 0x000 and is refused there. -/
def State.loadImage (s : State) (a : Addr) : List Byte → Host.Outcome State Fault Refusal
  | [] => .next s
  | b :: bs =>
    match s.load a b with
    | .next s' => s'.loadImage (a + 1) bs
    | .fault f => .fault f
    | .refused r => .refused r

end Sys2Proof.Machine
end

