-- ==== Sys2Proof/Safety.lean ====
section
/-! DEFINITION. The terms claims use: what a run is, which state is a good end and which is a fault (spec/60_exceptions.md
R305, spec/70_reset_and_hazards.md R367, R368), the launch premise ZeroReset (spec/10_state.md R37), the invariant of the
state, and what it means that a step leaves something unchanged. -/

namespace Sys2Proof.Machine

/-! ### Runs -/

/-- The launch premise ZeroReset (R37): registers, `I`, timers and `mem_init` are 0. -/
def ZeroReset (p : LaunchParams) : Prop :=
  p.regInit = Vector.replicate 16 0 ∧ p.iInit = 0 ∧ p.dtInit = 0 ∧ p.stInit = 0 ∧ ∀ c ∈ p.memInit, c.2 = 0

/-- States that some launch and some sequence of transactions reach, in any order the host likes (R367). -/
inductive Reachable : State → Prop where
  | launch (p : LaunchParams) : Reachable (State.resetWith p)
  | next {s t : State} (a : Transaction) : Reachable s → transact a s = .next t → Reachable t

/-- A status after which a run is still good: Ok, KeyWait, Unrecognized (R368). -/
def Status.good : Status → Bool
  | .ok | .keyWait | .unrecognized _ => true
  | .stackOverflow _ _ | .stackUnderflow _ _ | .fontRegionWrite _ _ _ | .halted => false

/-- A state that a launch, or a Reset of a block in any reachable state (a halted one too: R306, R312), has just left. -/
def JustReset (r : State) : Prop :=
  (∃ p, r = State.resetWith p) ∨ ∃ p s, Reachable s ∧ transact (.reset p) s = .next r

/-- States reached from reset by Steps that returned only good statuses, with the host's other transactions between
(R368). A fatal status ends a good run: "the state reached is never a successful end of a run" (R305). -/
inductive GoodRun : State → Prop where
  | launch {r : State} : JustReset r → GoodRun r
  | host {s t : State} (a : Transaction) : GoodRun s → a ≠ .step → transact a s = .next t → GoodRun t
  | step {s t : State} (u : Status) : GoodRun s → transact .step s = .next t → t.status = some u → u.good = true → GoodRun t

/-- The word at `pc` is `1NNN` with `NNN = pc` (R368). -/
def AtSelfJump (s : State) : Prop := ∃ nnn : Addr, decode (s.fetch s.pc) = .instr (.jp nnn) ∧ zext16 nnn = s.pc

/-! ### The normal end of a run (spec/70_reset_and_hazards.md R368) -/

/-- The status a Step has just returned, recorded in `s`, is good. -/
def State.statusGood (s : State) : Bool := s.status.any Status.good

/-- One transaction of a good run: it has a move, and if it is a Step it returns a good status. -/
def goodTransact (a : Transaction) (s : State) : Option State :=
  match transact a s with
  | .next t => if a = .step ∧ t.statusGood = false then none else some t
  | .fault _ | .refused _ => none

/-- A sequence of transactions of a good run. -/
def runGood : State → List Transaction → Option State
  | s, [] => some s
  | s, a :: as => (goodTransact a s).bind fun t => runGood t as

/-- What the host may do while it loads the image (R351, R361). -/
def Transaction.duringLoading : Transaction → Bool
  | .load _ _ | .setKeys _ | .timerTick | .read => true
  | .reset _ | .step => false

/-- What the host may do once the image is loaded, short of a new Reset (R367). -/
def Transaction.duringRun : Transaction → Bool
  | .setKeys _ | .timerTick | .step | .read => true
  | .load _ _ | .reset _ => false

/-- A `Load`. -/
def Transaction.isLoad : Transaction → Bool
  | .load _ _ => true
  | .reset _ | .setKeys _ | .timerTick | .step | .read => false

/-- The state `s` that the transactions `run` reach from the state `r` after reset and the loading `boot` is the normal
end of that run (R368): the FIRST state since the image was loaded, reached with good statuses only, that is not halted
and at a jump to itself. `boot` is up to the last `Load` (or empty), since a half-loaded image is not the program
(notes/assumptions/19.md). -/
structure NormalEnd (r : State) (boot run : List Transaction) (s : State) : Prop where
  launch : JustReset r
  loading : ∀ a ∈ boot, a.duringLoading = true
  lastLoad : ∀ a, boot.getLast? = some a → a.isLoad = true
  running : ∀ a ∈ run, a.duringRun = true
  reached : runGood r (boot ++ run) = some s
  notHalted : s.halted = false
  atSelfJump : AtSelfJump s
  /-- No earlier state of the run is one. -/
  first : ∀ (earlier rest : List Transaction) (t : State), run = earlier ++ rest → rest ≠ [] →
    runGood r (boot ++ earlier) = some t → ¬(t.halted = false ∧ AtSelfJump t)

/-! ### The invariant -/

/-- What every reachable state satisfies. -/
structure Inv (s : State) : Prop where
  /-- Bits 15 to 12 of `pc` are 0 (R24). -/
  pcRange : s.pc.toNat < 0x1000
  /-- The entries held are 12-bit return addresses (R101: "it is always below 0x1000"). -/
  stackRange : ∀ k : Fin 16, k.val < s.sp.val → s.stack[k].toNat < 0x1000
  /-- Memory is in canonical form. -/
  memWf : Memory.wf s.mem = true
  /-- Every framebuffer byte is 0 or 1 (R30). -/
  pixels : ∀ (y : Row) (x : Column), s.pixel y x = 0 ∨ s.pixel y x = 1
  /-- The latch is set exactly when the last Step returned a fatal status or Halted (R34, R305, R306). -/
  latch : s.halted = true ↔ ∃ u, s.status = some u ∧ u.good = false

/-! ### Classes of instructions and what a status carries -/

/-- The skips of R81: "advance PC by 4 instead of 2". -/
def isSkip : Instr → Bool
  | .seImm _ _ | .sneImm _ _ | .seReg _ _ | .sneReg _ _ | .skp _ | .sknp _ => true
  | .cls | .ret | .sys _ | .jp _ | .call _ | .ldImm _ _ | .addImm _ _ | .ldReg _ _ | .orReg _ _ | .andReg _ _ => false
  | .xorReg _ _ | .addReg _ _ | .sub _ _ | .shr _ _ | .subn _ _ | .shl _ _ | .ldI _ | .jpV0 _ | .rnd _ _ => false
  | .drw _ _ _ | .ldXDt _ | .ldXK _ | .ldDtX _ | .ldStX _ | .addIX _ | .ldFX _ | .ldBX _ | .ldMemX _ | .ldXMem _ => false

/-- The jumps, call and return of R81, which transfer control. -/
def isTransfer : Instr → Bool
  | .ret | .jp _ | .call _ | .jpV0 _ => true
  | .cls | .sys _ | .seImm _ _ | .sneImm _ _ | .seReg _ _ | .sneReg _ _ | .skp _ | .sknp _ | .ldImm _ _ => false
  | .addImm _ _ | .ldReg _ _ | .orReg _ _ | .andReg _ _ | .xorReg _ _ | .addReg _ _ | .sub _ _ | .shr _ _ => false
  | .subn _ _ | .shl _ _ | .ldI _ | .rnd _ _ | .drw _ _ _ | .ldXDt _ | .ldXK _ | .ldDtX _ | .ldStX _ => false
  | .addIX _ | .ldFX _ | .ldBX _ | .ldMemX _ | .ldXMem _ => false

/-- The instructions whose own check can be fatal (R81, R309). -/
def mayBeFatal : Instr → Bool
  | .ret | .call _ | .ldBX _ | .ldMemX _ => true
  | .cls | .sys _ | .jp _ | .jpV0 _ | .seImm _ _ | .sneImm _ _ | .seReg _ _ | .sneReg _ _ | .skp _ | .sknp _ => false
  | .ldImm _ _ | .addImm _ _ | .ldReg _ _ | .orReg _ _ | .andReg _ _ | .xorReg _ _ | .addReg _ _ | .sub _ _ => false
  | .shr _ _ | .subn _ _ | .shl _ _ | .ldI _ | .rnd _ _ | .drw _ _ _ | .ldXDt _ | .ldXK _ | .ldDtX _ => false
  | .ldStX _ | .addIX _ | .ldFX _ | .ldXMem _ => false

/-- The instructions that read or write memory beside their fetch (spec/20_memory.md R58). -/
def usesMemory : Instr → Bool
  | .drw _ _ _ | .ldBX _ | .ldMemX _ | .ldXMem _ => true
  | .cls | .ret | .sys _ | .jp _ | .call _ | .jpV0 _ | .seImm _ _ | .sneImm _ _ | .seReg _ _ | .sneReg _ _ => false
  | .skp _ | .sknp _ | .ldImm _ _ | .addImm _ _ | .ldReg _ _ | .orReg _ _ | .andReg _ _ | .xorReg _ _ => false
  | .addReg _ _ | .sub _ _ | .shr _ _ | .subn _ _ | .shl _ _ | .ldI _ | .rnd _ _ | .ldXDt _ | .ldXK _ => false
  | .ldDtX _ | .ldStX _ | .addIX _ | .ldFX _ => false

/-- The registers an instruction may write: VX, VX and VF, VF, or V0 to VX (spec/10_state.md R21). -/
def registersWritten : Instr → List Reg
  | .ldImm x _ | .addImm x _ | .rnd x _ | .ldReg x _ | .orReg x _ | .andReg x _ | .xorReg x _ => [x]
  | .ldXDt x | .ldXK x => [x]
  | .addReg x _ | .sub x _ | .shr x _ | .subn x _ | .shl x _ => [x, vf]
  | .drw _ _ _ => [vf]
  | .ldXMem x => (List.finRange 16).filter (· ≤ x)
  | .cls | .ret | .sys _ | .jp _ | .call _ | .jpV0 _ | .seImm _ _ | .sneImm _ _ | .seReg _ _ | .sneReg _ _ => []
  | .skp _ | .sknp _ | .ldI _ | .ldDtX _ | .ldStX _ | .addIX _ | .ldFX _ | .ldBX _ | .ldMemX _ => []

/-- The `pc` and the word a fatal status carries (R300). -/
def Status.origin : Status → Option (Word × Word)
  | .stackOverflow p w | .stackUnderflow p w | .fontRegionWrite p w _ => some (p, w)
  | .ok | .keyWait | .unrecognized _ | .halted => none

/-! ### Frames -/

/-- What an instruction may change, beside `pc` and the status of the Step. -/
structure Footprint where
  regs : List Reg := []
  index : Bool := false
  stack : Bool := false
  delay : Bool := false
  sound : Bool := false
  memory : List Addr := []
  display : Bool := false
  draws : Bool := false
deriving DecidableEq, Repr

/-- Everything outside the footprint is the same in both states. The key matrix, the latch and the launch policies are
outside every footprint; `pc` and `status` are said by each statement itself. -/
structure Unchanged (f : Footprint) (s t : State) : Prop where
  regs : ∀ y : Reg, y ∉ f.regs → t.reg y = s.reg y
  index : f.index = false → t.i = s.i
  stack : f.stack = false → t.sp = s.sp ∧ t.stack = s.stack
  delay : f.delay = false → t.dt = s.dt
  sound : f.sound = false → t.st = s.st
  memory : ∀ a : Addr, a ∉ f.memory → t.memRead a = s.memRead a
  display : f.display = false → ∀ (y : Row) (x : Column), t.pixel y x = s.pixel y x
  draws : f.draws = false → t.draws = s.draws
  keys : t.keys = s.keys
  halted : t.halted = s.halted
  policy : t.policy = s.policy

/-- The instruction falls through: status Ok, `pc` advanced by 2, nothing changed outside the footprint. -/
structure FellThrough (f : Footprint) (s t : State) : Prop where
  status : t.status = some .ok
  pc : t.pc = advancePc s.pc 2
  unchanged : Unchanged f s t

/-- The instruction skips exactly if `c`: status Ok, `pc` advanced by 4 or 2, nothing else changed. -/
structure Skipped (c : Prop) (s t : State) : Prop where
  status : t.status = some .ok
  taken : c → t.pc = advancePc s.pc 4
  notTaken : ¬c → t.pc = advancePc s.pc 2
  unchanged : Unchanged {} s t

end Sys2Proof.Machine
end

