-- ==== Sys2Proof/Certificates/Slice0/Obligations.lean ====
section
/-! DEFINITION. The statements about the model, for the provers. Each docstring names the rule or section of spec/ it
formalises and, where it rests on a decision or an inference the spec marks as its own, says so. -/

open Sys2Proof Sys2Proof.Machine

/-! ### Encoding and decoding -/

/-- 30_encoding.md section 1 and 2: no bit of an encoding is dropped. Every well-formed instruction, with every operand
value, decodes from its own word. -/
def Obligations.DecodeEncodeRoundTrip : Prop :=
  ∀ i : Instr, i.wellFormed = true → decode (encode i) = .instr i

/-- 30_encoding.md section 2: a word that decodes to an instruction is that instruction's word, and the instruction is
well-formed; so each word has one meaning. -/
def Obligations.EncodeDecodeRoundTrip : Prop :=
  ∀ (w : Word) (i : Instr), decode w = .instr i → i.wellFormed = true ∧ encode i = w

/-- 30_encoding.md section 2, the opcode map: for every one of the 65536 words, the rows of the map it matches are exactly
the one row of the instruction the decoder answers, or none where the decoder answers the unrecognized case. So the rows
are pairwise disjoint (the row 0NNN read as group 0 less 00E0 and 00EE) and the decoder agrees with the map. -/
def Obligations.DecoderAgreesWithOpcodeMap : Prop :=
  ∀ w : Word, mapMnemonics w = decodedMnemonics (decode w)

/-- 30_encoding.md section 2, the table of unrecognized words group by group (which the spec derives from its decode
algorithm): the words it lists OUTSIDE GROUP 0 are exactly those rejected, each carrying itself. R77 and R78 count the
words 0NNN less 00E0 and 00EE as unrecognized too; that the decoder answers the row SYS for them, whose meaning is the
unrecognized case, is the model's reading (DEDUCED, notes/assumptions/18.md). -/
def Obligations.UnrecognizedWordsExactly : Prop :=
  ∀ w : Word,
    (decode w = .unrecognized w ↔
      (w.toNat / 4096 = 0x5 ∧ w.toNat % 16 ≠ 0) ∨
      (w.toNat / 4096 = 0x8 ∧ w.toNat % 16 ∈ [0x8, 0x9, 0xA, 0xB, 0xC, 0xD, 0xF]) ∨
      (w.toNat / 4096 = 0x9 ∧ w.toNat % 16 ≠ 0) ∨
      (w.toNat / 4096 = 0xE ∧ w.toNat % 256 ∉ [0x9E, 0xA1]) ∨
      (w.toNat / 4096 = 0xF ∧ w.toNat % 256 ∉ [0x07, 0x0A, 0x15, 0x18, 0x1E, 0x29, 0x33, 0x55, 0x65])) ∧
    (∀ u, decode w = .unrecognized u → u = w) ∧
    ((∃ nnn, decode w = .instr (.sys nnn)) ↔ w.toNat / 4096 = 0 ∧ w ≠ 0x00E0#16 ∧ w ≠ 0x00EE#16)

/-- Words written out from the formats of 30_encoding.md section 1, one for each family and some rejected neighbours,
decode as 95_test_vectors.md section 2.1 and the rules' own examples say. A sanity check. -/
def Obligations.SampleWordsDecode : Prop :=
  decode 0x00E0#16 = .instr .cls ∧ decode 0x00EE#16 = .instr .ret ∧ decode 0x0123#16 = .instr (.sys 0x123#12) ∧
  decode 0x10E0#16 = .instr (.jp 0x0E0#12) ∧ decode 0x2300#16 = .instr (.call 0x300#12) ∧
  decode 0x3342#16 = .instr (.seImm 3 0x42#8) ∧ decode 0x5120#16 = .instr (.seReg 1 2) ∧
  decode 0x6A7B#16 = .instr (.ldImm 10 0x7B#8) ∧ decode 0x8127#16 = .instr (.subn 1 2) ∧
  decode 0x800E#16 = .instr (.shl 0 0) ∧ decode 0xBFFF#16 = .instr (.jpV0 0xFFF#12) ∧
  decode 0xD125#16 = .instr (.drw 1 2 5) ∧ decode 0xE19E#16 = .instr (.skp 1) ∧
  decode 0xF30A#16 = .instr (.ldXK 3) ∧ decode 0xFF65#16 = .instr (.ldXMem 15) ∧
  decode 0x5121#16 = .unrecognized 0x5121#16 ∧ decode 0x800F#16 = .unrecognized 0x800F#16 ∧
  decode 0xE1A2#16 = .unrecognized 0xE1A2#16 ∧ decode 0xFFFF#16 = .unrecognized 0xFFFF#16

/-! ### The cycle -/

/-- R80, the whole cycle: while halted a step changes nothing but the status it returns; otherwise it runs the instruction
that the word at `pc` decodes to, with nothing added around it, or reports the unrecognized word. -/
def Obligations.StepRunsDecodedInstruction : Prop :=
  ∀ s : State,
    (s.halted = true → step s = .next { s with status := some .halted }) ∧
    (∀ i, s.halted = false → decode (s.fetch s.pc) = .instr i → step s = exec i s) ∧
    (∀ w, s.halted = false → decode (s.fetch s.pc) = .unrecognized w → step s = reportUnrecognized w s)

/-- 20_memory.md section 2, instruction fetch: the byte at `P` is the high byte and the byte at `P + 1` the low byte; the
second address wraps at 12 bits (the spec's own decision D4; notes/assumptions/14.md), and so does a `P` of 0x1000 or above, which no
run reaches (the model's choice, notes/assumptions/15.md). -/
def Obligations.FetchIsBigEndian : Prop :=
  ∀ (s : State) (p : Word),
    (s.fetch p).toNat =
      (s.memRead (BitVec.ofNat 12 p.toNat)).toNat * 256 + (s.memRead (BitVec.ofNat 12 (p.toNat + 1))).toNat

/-- 60_exceptions.md section 1 ("Every Step returns one status") and section 2 (nothing else stops the block): from every
state a step gives a next state and a status. That a status is part of the next state is the model's form
(notes/assumptions/1.md, 2.md). -/
def Obligations.EveryStepReturnsAStatus : Prop :=
  ∀ s : State, ∃ t u, step s = .next t ∧ t.status = some u

/-- 60_exceptions.md section 2, the effect of a fatal status, and section 4 (precise exceptions); both are the spec's own
decision D8: nothing is written but the latch; the status carries the instruction's address and the word fetched there. -/
def Obligations.FatalStatusIsPrecise : Prop :=
  ∀ (s t : State) (u : Status), step s = .next t → t.status = some u → u.fatal = true →
    s.halted = false ∧ t = { s with halted := true, status := some u } ∧ u.origin = some (s.pc, s.fetch s.pc)

/-- 10_state.md section 8, the latch (decisions D2 and D8 of the spec): a step leaves it set exactly when it was set or the
step returned a fatal status. -/
def Obligations.LatchSetByFatalStatusOnly : Prop :=
  ∀ s t : State, step s = .next t →
    (t.halted = true ↔ s.halted = true ∨ ∃ u, t.status = some u ∧ u.fatal = true)

/-- 60_exceptions.md section 2, the unrecognized word (the report's form is the spec's decision D19): status
Unrecognized with the raw word, `pc` 2 further, nothing else written. -/
def Obligations.UnrecognizedWordIsReported : Prop :=
  ∀ (s : State) (w : Word), s.halted = false → decode (s.fetch s.pc) = .unrecognized w →
    ∃ t, step s = .next t ∧ t.status = some (.unrecognized (s.fetch s.pc)) ∧ t.pc = advancePc s.pc 2 ∧ Unchanged {} s t

/-- R302: SYS executes exactly as the unrecognized case: its raw word (0x0000 included) is reported, `pc` is advanced by 2,
nothing else is written. -/
def Obligations.SysIsReportedAsUnrecognized : Prop :=
  ∀ (nnn : Addr) (s : State),
    ∃ t, exec (.sys nnn) s = .next t ∧ t.status = some (.unrecognized (nnn.setWidth 16)) ∧ t.pc = advancePc s.pc 2 ∧
      Unchanged {} s t

/-- R81: every instruction's rule ends the cycle by falling through, by a skip, by a transfer to a 12-bit target, by FX0A's
hold, or fatally. The invariant is a premise since RET goes to a stack entry as it is. -/
def Obligations.EveryInstructionEndsTheCycleOneWay : Prop :=
  ∀ (i : Instr) (s t : State), Inv s → exec i s = .next t →
    (isSkip i = false ∧ isTransfer i = false ∧ t.pc = advancePc s.pc 2 ∧
      (t.status = some .ok ∨ ∃ w, t.status = some (.unrecognized w))) ∨
    (isSkip i = true ∧ t.status = some .ok ∧ (t.pc = advancePc s.pc 2 ∨ t.pc = advancePc s.pc 4)) ∨
    (isTransfer i = true ∧ t.status = some .ok ∧ t.pc.toNat < 0x1000) ∨
    ((∃ x, i = .ldXK x) ∧ (∀ k, s.pressed k = false) ∧ t = { s with status := some .keyWait }) ∨
    (mayBeFatal i = true ∧ ∃ u, u.fatal = true ∧ t = { s with halted := true, status := some u })

/-- 10_state.md section 2, `advance(n)` (the wrap is the spec's own decision D3), as a fall-through and as a skip that is
taken: `pc` becomes (pc + 2) or (pc + 4) modulo 0x1000, from every `pc`; so 0xFFE falls through to 0 and skips to 2. -/
def Obligations.AdvancesWrapAtTwelveBits : Prop :=
  ∀ (x : Reg) (nn : Byte) (s : State),
    (∃ t, exec (.ldImm x nn) s = .next t ∧ t.pc.toNat = (s.pc.toNat + 2) % 0x1000) ∧
    (s.reg x = nn → ∃ t, exec (.seImm x nn) s = .next t ∧ t.pc.toNat = (s.pc.toNat + 4) % 0x1000)

/-! ### Control flow -/

/-- 40_control_flow.md, 00EE RET, with the effect of a fatal status of 60_exceptions.md section 2 (the spec's own decisions
D7, D8): an empty stack is fatal; otherwise the most recent entry goes to `pc` as it is, one entry fewer is held, and
nothing else changes. -/
def Obligations.ReturnPopsTheStack : Prop :=
  ∀ s : State,
    (s.sp.val = 0 →
      exec .ret s = .next { s with halted := true, status := some (.stackUnderflow s.pc 0x00EE#16) }) ∧
    (∀ k : Fin 16, s.sp.val = k.val + 1 →
      ∃ t, exec .ret s = .next t ∧ t.status = some .ok ∧ t.pc = s.stack[k] ∧ t.sp.val = k.val ∧ t.stack = s.stack ∧
        Unchanged { stack := true } s t)

/-- R102. -/
def Obligations.JumpGoesToItsAddress : Prop :=
  ∀ (nnn : Addr) (s : State),
    ∃ t, exec (.jp nnn) s = .next t ∧ t.status = some .ok ∧ t.pc.toNat = nnn.toNat ∧ Unchanged {} s t

/-- 40_control_flow.md, 2NNN CALL, with the effect of a fatal status (the spec's own decisions D7, D8): 16 entries held is
fatal; otherwise the address after the call is pushed above the entries held, which stay, and control goes to NNN. -/
def Obligations.CallPushesTheReturnAddress : Prop :=
  ∀ (nnn : Addr) (s : State),
    (s.sp.val = 16 →
      exec (.call nnn) s =
        .next { s with halted := true, status := some (.stackOverflow s.pc (encode (.call nnn))) }) ∧
    (∀ k : Fin 16, s.sp.val = k.val →
      ∃ t, exec (.call nnn) s = .next t ∧ t.status = some .ok ∧ t.pc.toNat = nnn.toNat ∧ t.sp.val = k.val + 1 ∧
        t.stack[k].toNat = (s.pc.toNat + 2) % 0x1000 ∧ (∀ j : Fin 16, j ≠ k → t.stack[j] = s.stack[j]) ∧
        Unchanged { stack := true } s t)

/-- 40_control_flow.md, BNNN JP V0 (the wrap of the sum is the spec's own decision D6): `pc` becomes NNN + V0 modulo 0x1000,
whatever the X nibble names. -/
def Obligations.JumpPlusV0Wraps : Prop :=
  ∀ (nnn : Addr) (s : State),
    ∃ t, exec (.jpV0 nnn) s = .next t ∧ t.status = some .ok ∧
      t.pc.toNat = (nnn.toNat + (s.reg 0).toNat) % 0x1000 ∧ Unchanged {} s t

/-- R105, R106, R107, R108: the four register skips, each with its condition; nothing but `pc` changes. -/
def Obligations.RegisterSkipsFollowTheirCondition : Prop :=
  ∀ (x y : Reg) (nn : Byte) (s : State),
    (∃ t, exec (.seImm x nn) s = .next t ∧ Skipped (s.reg x = nn) s t) ∧
    (∃ t, exec (.sneImm x nn) s = .next t ∧ Skipped (s.reg x ≠ nn) s t) ∧
    (∃ t, exec (.seReg x y) s = .next t ∧ Skipped (s.reg x = s.reg y) s t) ∧
    (∃ t, exec (.sneReg x y) s = .next t ∧ Skipped (s.reg x ≠ s.reg y) s t)

/-- 40_control_flow.md, laws of the family (which the spec derives from CALL and RET): after a call, a return from any state
that holds the same entries goes to the instruction after the call, with the stack as deep as before the call. -/
def Obligations.CallThenReturnComesBack : Prop :=
  ∀ (nnn : Addr) (s : State), s.sp.val < 16 →
    ∃ t, exec (.call nnn) s = .next t ∧
      ∀ u : State, u.sp = t.sp → (∀ k : Fin 16, k.val < t.sp.val → u.stack[k] = t.stack[k]) →
        ∃ r, exec .ret u = .next r ∧ r.pc.toNat = (s.pc.toNat + 2) % 0x1000 ∧ r.sp = s.sp ∧
          ∀ k : Fin 16, k.val < s.sp.val → r.stack[k] = s.stack[k]

/-! ### Register loads and the ALU -/

/-- R141 and R142: VX becomes NN, or VX + NN modulo 256; no flag: every other register, VF among them, is unchanged. -/
def Obligations.ImmediateLoadAndAdd : Prop :=
  ∀ (x : Reg) (nn : Byte) (s : State),
    (∃ t, exec (.ldImm x nn) s = .next t ∧ t.reg x = nn ∧ FellThrough { regs := [x] } s t) ∧
    (∃ t, exec (.addImm x nn) s = .next t ∧ (t.reg x).toNat = ((s.reg x).toNat + nn.toNat) % 256 ∧
      FellThrough { regs := [x] } s t)

/-- 41_register_alu.md, CXNN RND (that the draw is free is the spec's own decision D15; notes/assumptions/4.md): VX becomes the
draw AND NN, whatever the draw, so bits clear in NN are 0; the draw is used up. The statement holds for every value of the
opaque draw. -/
def Obligations.RandomByteIsMasked : Prop :=
  ∀ (x : Reg) (nn : Byte) (s : State),
    ∃ t, exec (.rnd x nn) s = .next t ∧ t.reg x = Config.rand8 s.draws &&& nn ∧
      (∀ b, b < 8 → nn.getLsbD b = false → (t.reg x).getLsbD b = false) ∧ t.draws = s.draws + 1 ∧
      FellThrough { regs := [x], draws := true } s t

/-- R150, R151, R152, R153: copy, OR, AND, XOR; no flag touched. -/
def Obligations.CopyAndLogicTouchNoFlag : Prop :=
  ∀ (x y : Reg) (s : State),
    (∃ t, exec (.ldReg x y) s = .next t ∧ t.reg x = s.reg y ∧ FellThrough { regs := [x] } s t) ∧
    (∃ t, exec (.orReg x y) s = .next t ∧ t.reg x = s.reg x ||| s.reg y ∧ FellThrough { regs := [x] } s t) ∧
    (∃ t, exec (.andReg x y) s = .next t ∧ t.reg x = s.reg x &&& s.reg y ∧ FellThrough { regs := [x] } s t) ∧
    (∃ t, exec (.xorReg x y) s = .next t ∧ t.reg x = s.reg x ^^^ s.reg y ∧ FellThrough { regs := [x] } s t)

/-- R154: the sum modulo 256, and VF the carry, written last (so VF is the flag also when X = 15). -/
def Obligations.AddSetsCarry : Prop :=
  ∀ (x y : Reg) (s : State),
    ∃ t, exec (.addReg x y) s = .next t ∧
      (x ≠ vf → (t.reg x).toNat = ((s.reg x).toNat + (s.reg y).toNat) % 256) ∧
      t.reg vf = (if (s.reg x).toNat + (s.reg y).toNat > 255 then 1 else 0) ∧
      FellThrough { regs := [x, vf] } s t

/-- R155 and R157: the difference modulo 256, and VF 1 exactly when there is no borrow (equality included), written last. -/
def Obligations.SubtractionsSetNotBorrow : Prop :=
  ∀ (x y : Reg) (s : State),
    (∃ t, exec (.sub x y) s = .next t ∧
      (x ≠ vf → (t.reg x).toNat = ((s.reg x).toNat + 256 - (s.reg y).toNat) % 256) ∧
      t.reg vf = (if (s.reg x).toNat ≥ (s.reg y).toNat then 1 else 0) ∧
      FellThrough { regs := [x, vf] } s t) ∧
    (∃ t, exec (.subn x y) s = .next t ∧
      (x ≠ vf → (t.reg x).toNat = ((s.reg y).toNat + 256 - (s.reg x).toNat) % 256) ∧
      t.reg vf = (if (s.reg y).toNat ≥ (s.reg x).toNat then 1 else 0) ∧
      FellThrough { regs := [x, vf] } s t)

/-- R156 and R158: VX (not VY) shifted by one bit with 0 filled in, and VF the bit shifted out, written last; the result
does not depend on Y. -/
def Obligations.ShiftsSetTheBitShiftedOut : Prop :=
  ∀ (x y : Reg) (s : State),
    (∃ t, exec (.shr x y) s = .next t ∧ (x ≠ vf → (t.reg x).toNat = (s.reg x).toNat / 2) ∧
      (t.reg vf).toNat = (s.reg x).toNat % 2 ∧ FellThrough { regs := [x, vf] } s t) ∧
    (∃ t, exec (.shl x y) s = .next t ∧ (x ≠ vf → (t.reg x).toNat = (s.reg x).toNat * 2 % 256) ∧
      (t.reg vf).toNat = (s.reg x).toNat / 128 ∧ FellThrough { regs := [x, vf] } s t)

/-! ### Index register and memory -/

/-- R180: `I` becomes exactly the 12 bits NNN, bits 15 to 12 being 0. -/
def Obligations.LoadIndexTakesTwelveBits : Prop :=
  ∀ (nnn : Addr) (s : State),
    ∃ t, exec (.ldI nnn) s = .next t ∧ t.i.toNat = nnn.toNat ∧ FellThrough { index := true } s t

/-- 42_index_memory.md, FX1E (that no flag is written is the spec's own decision D27): `I` becomes I + VX modulo 0x1000, and
no register changes. -/
def Obligations.AddToIndexWrapsWithoutFlag : Prop :=
  ∀ (x : Reg) (s : State),
    ∃ t, exec (.addIX x) s = .next t ∧ t.i.toNat = (s.i.toNat + (s.reg x).toNat) % 0x1000 ∧
      FellThrough { index := true } s t

/-- 42_index_memory.md, FX29 (base 0 and the whole of VX are the spec's own decision D12): `I` becomes VX * 5. -/
def Obligations.GlyphAddressIsFiveTimesTheRegister : Prop :=
  ∀ (x : Reg) (s : State),
    ∃ t, exec (.ldFX x) s = .next t ∧ t.i.toNat = (s.reg x).toNat * 5 ∧ FellThrough { index := true } s t

/-- 20_memory.md section 4 and 60_exceptions.md section 2, FontRegionWrite (the spec's own decision D14): under the policy
`fault`, FX33 or FX55 with an address below 0x050 among those it would write is fatal and writes nothing; the status
carries the lowest such address. -/
def Obligations.FontRegionWriteIsFatal : Prop :=
  ∀ (i : Instr) (n : Nat) (s : State),
    ((∃ x, i = .ldBX x ∧ n = 3) ∨ (∃ x : Reg, i = .ldMemX x ∧ n = x.val + 1)) →
    s.policy.fontWrite = .fault → (∃ k, k < n ∧ (addrAt s.i k).toNat < 0x050) →
    ∃ a : Addr,
      exec i s = .next { s with halted := true, status := some (.fontRegionWrite s.pc (encode i) a) } ∧
      (∃ k, k < n ∧ a = addrAt s.i k) ∧ a.toNat < 0x050 ∧
      ∀ k, k < n → (addrAt s.i k).toNat < 0x050 → a.toNat ≤ (addrAt s.i k).toNat

/-- 42_index_memory.md, FX33, where it is not fatal (the policies are the spec's own decision D14): the three decimal digits
of VX go to a12(I), a12(I + 1), a12(I + 2), except where the policy `drop` discards a byte of the font region; every other
byte, `I` and every register are unchanged. -/
def Obligations.BcdStoreWritesThreeDigits : Prop :=
  ∀ (x : Reg) (s : State), Memory.wf s.mem = true →
    (s.policy.fontWrite = .fault → ∀ k, k < 3 → 0x050 ≤ (addrAt s.i k).toNat) →
    ∃ t, exec (.ldBX x) s = .next t ∧
      (∀ k, k < 3 → (0x050 ≤ (addrAt s.i k).toNat ∨ s.policy.fontWrite = .write) →
        (t.memRead (addrAt s.i k)).toNat = (s.reg x).toNat / 10 ^ (2 - k) % 10) ∧
      (∀ k, k < 3 → (addrAt s.i k).toNat < 0x050 → s.policy.fontWrite = .drop →
        t.memRead (addrAt s.i k) = s.memRead (addrAt s.i k)) ∧
      FellThrough { memory := (List.range 3).map (addrAt s.i) } s t

/-- 42_index_memory.md, FX55, where it is not fatal (the spec's own decisions D11 and D14): V0 to VX go to a12(I) upward,
except where the policy `drop` discards a byte of the font region; every other byte is unchanged; `I` moves past the last
byte exactly if `ldst_increments_i`. -/
def Obligations.BulkStoreWritesRegisters : Prop :=
  ∀ (x : Reg) (s : State), Memory.wf s.mem = true →
    (s.policy.fontWrite = .fault → ∀ k, k ≤ x.val → 0x050 ≤ (addrAt s.i k).toNat) →
    ∃ t, exec (.ldMemX x) s = .next t ∧
      (∀ k : Reg, k ≤ x → (0x050 ≤ (addrAt s.i k.val).toNat ∨ s.policy.fontWrite = .write) →
        t.memRead (addrAt s.i k.val) = s.reg k) ∧
      (∀ k : Reg, k ≤ x → (addrAt s.i k.val).toNat < 0x050 → s.policy.fontWrite = .drop →
        t.memRead (addrAt s.i k.val) = s.memRead (addrAt s.i k.val)) ∧
      (s.policy.ldstIncrementsI = true → t.i.toNat = (s.i.toNat + x.val + 1) % 0x1000) ∧
      FellThrough { memory := (List.range (x.val + 1)).map (addrAt s.i), index := s.policy.ldstIncrementsI } s t

/-- 42_index_memory.md, FX65 (`ldst_increments_i` is the spec's own decision D11): V0 to VX come from a12(I) upward, VF like
any other when X = 15; the registers above VX are unchanged; `I` moves past the last byte exactly if `ldst_increments_i`. -/
def Obligations.BulkLoadReadsRegisters : Prop :=
  ∀ (x : Reg) (s : State),
    ∃ t, exec (.ldXMem x) s = .next t ∧
      (∀ k : Reg, k ≤ x → t.reg k = s.memRead (addrAt s.i k.val)) ∧
      (s.policy.ldstIncrementsI = true → t.i.toNat = (s.i.toNat + x.val + 1) % 0x1000) ∧
      FellThrough { regs := (List.finRange 16).filter (· ≤ x), index := s.policy.ldstIncrementsI } s t

/-- 42_index_memory.md, laws of the family, the BCD law (which the spec derives from FX33): the three bytes written are
digits that spell VX. -/
def Obligations.BcdDigitsSpellTheRegister : Prop :=
  ∀ (x : Reg) (s : State), Memory.wf s.mem = true → (∀ k, k < 3 → 0x050 ≤ (addrAt s.i k).toNat) →
    ∃ t, exec (.ldBX x) s = .next t ∧
      100 * (t.memRead (addrAt s.i 0)).toNat + 10 * (t.memRead (addrAt s.i 1)).toNat +
        (t.memRead (addrAt s.i 2)).toNat = (s.reg x).toNat ∧
      (t.memRead (addrAt s.i 0)).toNat ≤ 2 ∧ (t.memRead (addrAt s.i 1)).toNat ≤ 9 ∧
      (t.memRead (addrAt s.i 2)).toNat ≤ 9

/-- 42_index_memory.md, laws of the family, the round trip (which the spec derives from FX55 and FX65): after an FX55 that
writes outside the font region, an FX65 with the same X from any state with the same bytes at the same `I` gives V0 to VX
back. -/
def Obligations.StoreThenLoadGivesRegistersBack : Prop :=
  ∀ (x : Reg) (s : State), Memory.wf s.mem = true → (∀ k, k ≤ x.val → 0x050 ≤ (addrAt s.i k).toNat) →
    ∃ t, exec (.ldMemX x) s = .next t ∧
      ∀ u : State, u.i = s.i → (∀ k, k ≤ x.val → u.memRead (addrAt s.i k) = t.memRead (addrAt s.i k)) →
        ∃ r, exec (.ldXMem x) u = .next r ∧ ∀ k : Reg, k ≤ x → r.reg k = s.reg k

/-- 20_memory.md section 5, instruction-fetch coherence (which the spec derives from fetch and the order of accesses): the
bytes an FX55 stores are the ones the next fetch there reads, as a word: V[k] high, V[k + 1] low. -/
def Obligations.StoreIsSeenByTheNextFetch : Prop :=
  ∀ (x k : Reg) (s : State), Memory.wf s.mem = true → (∀ j, j ≤ x.val → 0x050 ≤ (addrAt s.i j).toNat) → k < x →
    ∃ t, exec (.ldMemX x) s = .next t ∧
      (t.fetch (zext16 (addrAt s.i k.val))).toNat = (s.reg k).toNat * 256 + (s.reg (k + 1)).toNat

/-! ### Display -/

/-- R211: every framebuffer byte 0; VF and everything else unchanged. -/
def Obligations.ClearScreenClearsEveryPixel : Prop :=
  ∀ s : State,
    ∃ t, exec .cls s = .next t ∧ (∀ (y : Row) (x : Column), t.pixel y x = 0) ∧ FellThrough { display := true } s t

/-- 43_display.md, framebuffer addressing and the pixel update (derived by the spec, and its own decision D18), for EVERY
framebuffer: the pixel at ((VX + c) mod 64, (VY + r) mod 32) is updated by bit 7 - c of the byte at a12(I + r), every pixel
that no row and column of the sprite addresses is unchanged, and VF is 1 exactly when a set sprite bit met a lit pixel.
N = 0 changes no pixel and clears VF. -/
def Obligations.DrawUpdatesTheAddressedPixels : Prop :=
  ∀ (x y : Reg) (n : RowCount) (s : State),
    ∃ t, exec (.drw x y n) s = .next t ∧
      (∀ r c, r < n.val → c < 8 → ∀ (py : Row) (px : Column),
        py.val = ((s.reg y).toNat + r) % 32 → px.val = ((s.reg x).toNat + c) % 64 →
        t.pixel py px = (if (s.memRead (addrAt s.i r)).getLsbD (7 - c) then (if s.pixel py px = 0 then 1 else 0)
          else s.pixel py px)) ∧
      (∀ (py : Row) (px : Column),
        (∀ r c, r < n.val → c < 8 → ¬(py.val = ((s.reg y).toNat + r) % 32 ∧ px.val = ((s.reg x).toNat + c) % 64)) →
        t.pixel py px = s.pixel py px) ∧
      (t.reg vf = 0 ∨ t.reg vf = 1) ∧
      (t.reg vf = 1 ↔ ∃ r c, r < n.val ∧ c < 8 ∧ (s.memRead (addrAt s.i r)).getLsbD (7 - c) = true ∧
        ∃ (py : Row) (px : Column), py.val = ((s.reg y).toNat + r) % 32 ∧ px.val = ((s.reg x).toNat + c) % 64 ∧
          s.pixel py px ≠ 0) ∧
      FellThrough { regs := [vf], display := true } s t

/-- R215, in the source's words, on a framebuffer of 0 and 1 (which every reachable state has): each sprite bit is XORed into
its cell, and VF is 1 exactly when some pixel of the whole screen went from on to off. -/
def Obligations.DrawXorsTheSprite : Prop :=
  ∀ (x y : Reg) (n : RowCount) (s : State), (∀ (py : Row) (px : Column), s.pixel py px = 0 ∨ s.pixel py px = 1) →
    ∃ t, exec (.drw x y n) s = .next t ∧
      (∀ r c, r < n.val → c < 8 → ∀ (py : Row) (px : Column),
        py.val = ((s.reg y).toNat + r) % 32 → px.val = ((s.reg x).toNat + c) % 64 →
        t.pixel py px = s.pixel py px ^^^ (if (s.memRead (addrAt s.i r)).getLsbD (7 - c) then 1 else 0)) ∧
      (∀ (py : Row) (px : Column),
        (∀ r c, r < n.val → c < 8 → ¬(py.val = ((s.reg y).toNat + r) % 32 ∧ px.val = ((s.reg x).toNat + c) % 64)) →
        t.pixel py px = s.pixel py px) ∧
      t.reg vf = (if ∃ (py : Row) (px : Column), s.pixel py px ≠ 0 ∧ t.pixel py px = 0 then 1 else 0) ∧
      FellThrough { regs := [vf], display := true } s t

/-- 43_display.md, draw laws (which the spec derives from DXYN and the pixel update): drawing the same sprite twice at the
same origin, with no framebuffer write between, restores the framebuffer; the second draw sets VF exactly when some set bit
of the sprite fell on a pixel that was off before the first draw, so, if the first draw turned no pixel off, exactly when the
sprite has a set bit in its first N bytes. (Without a premise the spec's last clause contradicts its own pixel update where
the sprite has a set bit and every set bit met a lit pixel in the first draw: notes/assumptions/21.md.) -/
def Obligations.DrawingTwiceRestoresTheScreen : Prop :=
  ∀ (x y : Reg) (n : RowCount) (s : State), (∀ (py : Row) (px : Column), s.pixel py px = 0 ∨ s.pixel py px = 1) →
    ∃ t, exec (.drw x y n) s = .next t ∧
      ∀ u : State, u.fb = t.fb → u.reg x = s.reg x → u.reg y = s.reg y → u.i = s.i →
        (∀ r, r < n.val → u.memRead (addrAt s.i r) = s.memRead (addrAt s.i r)) →
        ∃ q, exec (.drw x y n) u = .next q ∧ q.fb = s.fb ∧
          (q.reg vf = 1 ↔ ∃ r c, r < n.val ∧ c < 8 ∧ (s.memRead (addrAt s.i r)).getLsbD (7 - c) = true ∧
            ∃ (py : Row) (px : Column), py.val = ((s.reg y).toNat + r) % 32 ∧ px.val = ((s.reg x).toNat + c) % 64 ∧
              s.pixel py px = 0) ∧
          (t.reg vf = 0 → (q.reg vf = 1 ↔ ∃ r, r < n.val ∧ s.memRead (addrAt s.i r) ≠ 0))

/-! ### Keys and timers -/

/-- 44_keys_timers.md, EX9E and EXA1 (the mask of the key index is the spec's own decision D9): the key named by the low
nibble of VX, pressed meaning a nonzero byte, decides the skip. -/
def Obligations.KeySkipsFollowTheKey : Prop :=
  ∀ (x : Reg) (k : Key) (s : State), k.val = (s.reg x).toNat % 16 →
    (∃ t, exec (.skp x) s = .next t ∧ Skipped (s.keys[k] ≠ 0) s t) ∧
    (∃ t, exec (.sknp x) s = .next t ∧ Skipped (s.keys[k] = 0) s t)

/-- R233, R235, R236: VX := DT, DT := VX, ST := VX; nothing else. -/
def Obligations.TimerMovesCopyTheRegister : Prop :=
  ∀ (x : Reg) (s : State),
    (∃ t, exec (.ldXDt x) s = .next t ∧ t.reg x = s.dt ∧ FellThrough { regs := [x] } s t) ∧
    (∃ t, exec (.ldDtX x) s = .next t ∧ t.dt = s.reg x ∧ FellThrough { delay := true } s t) ∧
    (∃ t, exec (.ldStX x) s = .next t ∧ t.st = s.reg x ∧ FellThrough { sound := true } s t)

/-- 44_keys_timers.md, FX0A (level, and the least key, are the spec's own decision D10): with a key pressed VX becomes the
least such key and the instruction completes; with none, nothing is written, `pc` stays, and the status is KeyWait. -/
def Obligations.KeyWaitTakesTheLeastKeyOrHolds : Prop :=
  ∀ (x : Reg) (s : State),
    (∀ k : Key, s.keys[k] ≠ 0 → (∀ j : Key, j < k → s.keys[j] = 0) →
      ∃ t, exec (.ldXK x) s = .next t ∧ (t.reg x).toNat = k.val ∧ FellThrough { regs := [x] } s t) ∧
    ((∀ k : Key, s.keys[k] = 0) → exec (.ldXK x) s = .next { s with status := some .keyWait })

/-- 60_exceptions.md section 5 and 70_reset_and_hazards.md section 2, FX0A's hold: a step that returned KeyWait is repeated by
the next one with nothing changed, until the host writes a key. -/
def Obligations.KeyWaitIsRepeated : Prop :=
  ∀ s t : State, step s = .next t → t.status = some .keyWait →
    step t = .next t ∧ t = { s with status := some .keyWait } ∧ ∀ k : Key, s.keys[k] = 0

/-! ### Rules about the whole machine -/

/-- The invariant holds after reset (10_state.md sections 2, 4, 6 and 8; the reset of SP, framebuffer and latch are the
spec's own decisions D2 and D17; the canonical form of memory is the model's). -/
def Obligations.InvariantHoldsAtReset : Prop := Inv State.reset

/-- Every step keeps the invariant, from every state that satisfies it, reached or not: `pc` below 0x1000, stack entries
below 0x1000, memory in canonical form, pixels 0 or 1, the latch in agreement with the status (10_state.md sections 2, 4,
6 and 8; the spec's own decisions D3, D7, D8, D18; the canonical form is the model's). -/
def Obligations.EveryStepKeepsTheInvariant : Prop :=
  ∀ s t : State, Inv s → step s = .next t → Inv t

/-- Every launch, with any parameters, has the invariant; every transaction of the host keeps it, from every state that has
it, reached or not; so every reachable state has it (70_reset_and_hazards.md section 3). -/
def Obligations.EveryReachableStateHasTheInvariant : Prop :=
  (∀ p : LaunchParams, Inv (State.resetWith p)) ∧
  (∀ (a : Transaction) (s t : State), Inv s → transact a s = .next t → Inv t) ∧
  ∀ s : State, Reachable s → Inv s

/-- 10_state.md section 1, the writers of the general registers (that no others write is the spec's own decision D27): an
instruction leaves every register it does not write unchanged. -/
def Obligations.OnlyNamedInstructionsWriteRegisters : Prop :=
  ∀ (i : Instr) (s t : State) (y : Reg), exec i s = .next t → y ∉ registersWritten i → t.reg y = s.reg y

/-- 10_state.md sections 3 to 7 (the stack part is the spec's own decision D7, the key part D26), with 20_memory.md section 3
(R58) for memory, and 42_index_memory.md, FX55 and FX65, with the spec's own decision D11 for their part of `I`: who may
change the rest of the state. That no instruction changes the policies is the model's choice (notes/assumptions/10.md). -/
def Obligations.OnlyNamedInstructionsChangeOtherState : Prop :=
  ∀ (i : Instr) (s t : State), exec i s = .next t →
    (t.stack ≠ s.stack → ∃ nnn, i = .call nnn) ∧
    (t.sp ≠ s.sp → i = .ret ∧ t.sp.val + 1 = s.sp.val ∨ (∃ nnn, i = .call nnn) ∧ t.sp.val = s.sp.val + 1) ∧
    (t.dt ≠ s.dt → ∃ x, i = .ldDtX x) ∧
    (t.st ≠ s.st → ∃ x, i = .ldStX x) ∧
    (t.fb ≠ s.fb → i = .cls ∨ ∃ x y n, i = .drw x y n) ∧
    (t.mem ≠ s.mem → ∃ x, i = .ldBX x ∨ i = .ldMemX x) ∧
    (t.i ≠ s.i → (∃ nnn, i = .ldI nnn) ∨ (∃ x, i = .addIX x ∨ i = .ldFX x) ∨
      s.policy.ldstIncrementsI = true ∧ ∃ x, i = .ldMemX x ∨ i = .ldXMem x) ∧
    t.keys = s.keys ∧ t.policy = s.policy

/-- 10_state.md section 3: a step that changes `I` leaves it below 0x1000, whatever 16-bit value it had. -/
def Obligations.WrittenIndexIsTwelveBits : Prop :=
  ∀ s t : State, step s = .next t → t.i ≠ s.i → t.i.toNat < 0x1000

/-- 20_memory.md section 4 and 60_exceptions.md section 2 (the spec's own decision D14): no step changes a byte below 0x050
unless the policy is `write`. -/
def Obligations.FontRegionIsNeverOverwritten : Prop :=
  ∀ (s t : State) (a : Addr), Memory.wf s.mem = true → s.policy.fontWrite ≠ .write → step s = .next t → a.toNat < 0x050 →
    t.memRead a = s.memRead a

/-- 20_memory.md section 3, the accesses of each instruction: an instruction other than DXYN, FX33, FX55 and FX65 neither reads
nor writes memory: with any other memory contents it does the same to the rest of the state. The two executions have the
same draw counter, so CXNN is compared WITH THE SAME DRAW (DESIGN CHOICE, notes/assumptions/4.md). -/
def Obligations.OtherInstructionsIgnoreMemory : Prop :=
  ∀ (i : Instr) (s t : State) (m : Memory), usesMemory i = false → exec i s = .next t →
    exec i { s with mem := m } = .next { t with mem := m }

/-- 20_memory.md section 3: DXYN and FX65 read only the bytes at a12(I + k), k below N or up to X: from two states alike but
for memory, with those bytes the same, they do the same to everything but memory, which they leave. -/
def Obligations.MemoryReadersReadTheirBytesOnly : Prop :=
  ∀ (i : Instr) (n : Nat) (s t : State) (m : Memory),
    ((∃ x y r, i = .drw x y r ∧ n = r.val) ∨ (∃ x : Reg, i = .ldXMem x ∧ n = x.val + 1)) →
    (∀ k, k < n → State.memRead { s with mem := m } (addrAt s.i k) = s.memRead (addrAt s.i k)) →
    exec i s = .next t → t.mem = s.mem ∧ exec i { s with mem := m } = .next { t with mem := m }

/-- 10_state.md section 8, visibility (which the spec derives): a program cannot read ST, nor, but for DXYN's flag, the
framebuffer: what an instruction does to everything else does not depend on them. The executions compared have the same
draw counter, so CXNN is compared WITH THE SAME DRAW (DESIGN CHOICE, notes/assumptions/4.md). -/
def Obligations.SoundTimerAndScreenAreNotReadable : Prop :=
  ∀ (i : Instr) (s t : State), exec i s = .next t →
    (∀ b : Byte, ∃ b', exec i { s with st := b } = .next { t with st := b' }) ∧
    (∀ f : Framebuffer, (∀ x y n, i ≠ .drw x y n) → ∃ f', exec i { s with fb := f } = .next { t with fb := f' }) ∧
    (∀ f : Framebuffer, (∃ x y n, i = .drw x y n) →
      ∃ f' c, exec i { s with fb := f } = .next { t.setReg vf c with fb := f' })

/-- 70_reset_and_hazards.md section 3, end of a run (the self-jump as the normal end is the spec's own decision D28): a step
from such a state returns Ok and leaves everything but the status as it was, so the state stays one. -/
def Obligations.SelfJumpStaysThere : Prop :=
  ∀ s : State, s.halted = false → AtSelfJump s →
    step s = .next { s with status := some .ok } ∧ AtSelfJump { s with status := some .ok }

/-- 60_exceptions.md section 2 (a fatal status is never a successful end) and 70_reset_and_hazards.md section 3: a good run
never holds a state with the latch set, so neither does a normal end. -/
def Obligations.GoodRunsAreNeverHalted : Prop :=
  ∀ s : State, GoodRun s → s.halted = false

/-! ### Reset and the host's transactions -/

/-- 10_state.md section 9 and 70_reset_and_hazards.md section 1 (SP, framebuffer and latch are the spec's own decisions D2 and
D17, the parameters D16): what a launch with ANY parameters leaves; the state after reset is the launch with the defaults. -/
def Obligations.ResetBuildsTheLaunchState : Prop :=
  (∀ p : LaunchParams,
    (State.resetWith p).pc = 0x200#16 ∧ (State.resetWith p).sp.val = 0 ∧ (State.resetWith p).halted = false ∧
    (∀ k : Fin 80, (State.resetWith p).memRead (BitVec.ofNat 12 k.val) = p.font[k]) ∧
    (∀ a : Addr, 0x050 ≤ a.toNat → (∀ c ∈ p.memInit, c.1 ≠ a) → (State.resetWith p).memRead a = 0) ∧
    (∀ (a : Addr) (b : Byte), 0x050 ≤ a.toNat → (a, b) ∈ p.memInit → (∀ c ∈ p.memInit, c.1 = a → c.2 = b) →
      (State.resetWith p).memRead a = b) ∧
    (∀ (y : Row) (x : Column), (State.resetWith p).pixel y x = 0) ∧
    (∀ x : Reg, (State.resetWith p).reg x = p.regInit[x]) ∧
    (State.resetWith p).i = p.iInit ∧ (State.resetWith p).dt = p.dtInit ∧ (State.resetWith p).st = p.stInit ∧
    (State.resetWith p).policy = p.policy) ∧
  State.reset = State.resetWith {}

/-- 70_reset_and_hazards.md section 3, TimerTick (one tick for both timers is the spec's own decision D20): both timers are
decremented and clamped at 0; nothing else changes. -/
def Obligations.TimerTickClampsAtZero : Prop :=
  ∀ s : State,
    ∃ t, transact .timerTick s = .next t ∧ t.dt.toNat = s.dt.toNat - 1 ∧ t.st.toNat = s.st.toNat - 1 ∧ t.pc = s.pc ∧
      t.status = s.status ∧ Unchanged { delay := true, sound := true } s t

/-- 70_reset_and_hazards.md section 3, Load and SetKeys (the spec's own decisions D21 and D26): a load at 0x200 or above before
the first Step writes that byte alone; below 0x200, or after a Step, it has no move; SetKeys replaces the key matrix. Before
the first Step is said as: no status recorded since the last Reset, so that a Load has a move again after a later Reset;
that is the model's reading (DEDUCED, notes/assumptions/1.md and 20.md). -/
def Obligations.LoadAndSetKeysFollowTheirRules : Prop :=
  ∀ (s : State) (a : Addr) (b : Byte) (k : Vector Byte 16), Memory.wf s.mem = true →
    (0x200 ≤ a.toNat → s.status = none →
      ∃ t, transact (.load a b) s = .next t ∧ t.memRead a = b ∧ t.pc = s.pc ∧ t.status = none ∧
        Unchanged { memory := [a] } s t) ∧
    (a.toNat < 0x200 → transact (.load a b) s = .refused (.loadBelowProgram a)) ∧
    (0x200 ≤ a.toNat → s.status ≠ none → transact (.load a b) s = .refused (.loadAfterFirstStep a)) ∧
    transact (.setKeys k) s = .next { s with keys := k }

/-- 70_reset_and_hazards.md section 3, end of a run (the spec's own decision D28; that loading is compared as a whole is
the model's reading, notes/assumptions/19.md): a normal end is a state of a good run, it is the only one of its run, and
every good run that comes to a jump to itself has a normal end, there or before. -/
def Obligations.NormalEndIsTheFirstSelfJump : Prop :=
  (∀ (r s : State) (boot run : List Transaction), NormalEnd r boot run s →
    GoodRun s ∧ ∀ (rest : List Transaction) (t : State), NormalEnd r boot (run ++ rest) t → rest = [] ∧ t = s) ∧
  ∀ (r s : State) (boot run : List Transaction), JustReset r →
    (∀ a ∈ boot, a.duringLoading = true) → (∀ a, boot.getLast? = some a → a.isLoad = true) →
    (∀ a ∈ run, a.duringRun = true) → runGood r (boot ++ run) = some s → AtSelfJump s →
    ∃ (earlier rest : List Transaction) (t : State), run = earlier ++ rest ∧ NormalEnd r boot earlier t
end

