-- ==== Sys2Proof/Laws/State.lean ====
section
/-! SUPPORT. One lemma per field per update of the state, so that no later proof unfolds a record update; and what the
accessors of registers, `VF`, pixels and keys read after each update. -/

namespace Sys2Proof.Machine

/-! ### `setReg` -/

@[simp] theorem setReg_v (s : State) (x : Reg) (b : Byte) : (s.setReg x b).v = s.v.set x b := rfl
@[simp] theorem setReg_i (s : State) (x : Reg) (b : Byte) : (s.setReg x b).i = s.i := rfl
@[simp] theorem setReg_pc (s : State) (x : Reg) (b : Byte) : (s.setReg x b).pc = s.pc := rfl
@[simp] theorem setReg_sp (s : State) (x : Reg) (b : Byte) : (s.setReg x b).sp = s.sp := rfl
@[simp] theorem setReg_stack (s : State) (x : Reg) (b : Byte) : (s.setReg x b).stack = s.stack := rfl
@[simp] theorem setReg_dt (s : State) (x : Reg) (b : Byte) : (s.setReg x b).dt = s.dt := rfl
@[simp] theorem setReg_st (s : State) (x : Reg) (b : Byte) : (s.setReg x b).st = s.st := rfl
@[simp] theorem setReg_mem (s : State) (x : Reg) (b : Byte) : (s.setReg x b).mem = s.mem := rfl
@[simp] theorem setReg_fb (s : State) (x : Reg) (b : Byte) : (s.setReg x b).fb = s.fb := rfl
@[simp] theorem setReg_keys (s : State) (x : Reg) (b : Byte) : (s.setReg x b).keys = s.keys := rfl
@[simp] theorem setReg_halted (s : State) (x : Reg) (b : Byte) : (s.setReg x b).halted = s.halted := rfl
@[simp] theorem setReg_status (s : State) (x : Reg) (b : Byte) : (s.setReg x b).status = s.status := rfl
@[simp] theorem setReg_policy (s : State) (x : Reg) (b : Byte) : (s.setReg x b).policy = s.policy := rfl
@[simp] theorem setReg_draws (s : State) (x : Reg) (b : Byte) : (s.setReg x b).draws = s.draws := rfl

/-! ### `setIndex` -/

@[simp] theorem setIndex_v (s : State) (w : Word) : (s.setIndex w).v = s.v := rfl
@[simp] theorem setIndex_i (s : State) (w : Word) : (s.setIndex w).i = w := rfl
@[simp] theorem setIndex_pc (s : State) (w : Word) : (s.setIndex w).pc = s.pc := rfl
@[simp] theorem setIndex_sp (s : State) (w : Word) : (s.setIndex w).sp = s.sp := rfl
@[simp] theorem setIndex_stack (s : State) (w : Word) : (s.setIndex w).stack = s.stack := rfl
@[simp] theorem setIndex_dt (s : State) (w : Word) : (s.setIndex w).dt = s.dt := rfl
@[simp] theorem setIndex_st (s : State) (w : Word) : (s.setIndex w).st = s.st := rfl
@[simp] theorem setIndex_mem (s : State) (w : Word) : (s.setIndex w).mem = s.mem := rfl
@[simp] theorem setIndex_fb (s : State) (w : Word) : (s.setIndex w).fb = s.fb := rfl
@[simp] theorem setIndex_keys (s : State) (w : Word) : (s.setIndex w).keys = s.keys := rfl
@[simp] theorem setIndex_halted (s : State) (w : Word) : (s.setIndex w).halted = s.halted := rfl
@[simp] theorem setIndex_status (s : State) (w : Word) : (s.setIndex w).status = s.status := rfl
@[simp] theorem setIndex_policy (s : State) (w : Word) : (s.setIndex w).policy = s.policy := rfl
@[simp] theorem setIndex_draws (s : State) (w : Word) : (s.setIndex w).draws = s.draws := rfl

/-! ### `setDelay` -/

@[simp] theorem setDelay_v (s : State) (b : Byte) : (s.setDelay b).v = s.v := rfl
@[simp] theorem setDelay_i (s : State) (b : Byte) : (s.setDelay b).i = s.i := rfl
@[simp] theorem setDelay_pc (s : State) (b : Byte) : (s.setDelay b).pc = s.pc := rfl
@[simp] theorem setDelay_sp (s : State) (b : Byte) : (s.setDelay b).sp = s.sp := rfl
@[simp] theorem setDelay_stack (s : State) (b : Byte) : (s.setDelay b).stack = s.stack := rfl
@[simp] theorem setDelay_dt (s : State) (b : Byte) : (s.setDelay b).dt = b := rfl
@[simp] theorem setDelay_st (s : State) (b : Byte) : (s.setDelay b).st = s.st := rfl
@[simp] theorem setDelay_mem (s : State) (b : Byte) : (s.setDelay b).mem = s.mem := rfl
@[simp] theorem setDelay_fb (s : State) (b : Byte) : (s.setDelay b).fb = s.fb := rfl
@[simp] theorem setDelay_keys (s : State) (b : Byte) : (s.setDelay b).keys = s.keys := rfl
@[simp] theorem setDelay_halted (s : State) (b : Byte) : (s.setDelay b).halted = s.halted := rfl
@[simp] theorem setDelay_status (s : State) (b : Byte) : (s.setDelay b).status = s.status := rfl
@[simp] theorem setDelay_policy (s : State) (b : Byte) : (s.setDelay b).policy = s.policy := rfl
@[simp] theorem setDelay_draws (s : State) (b : Byte) : (s.setDelay b).draws = s.draws := rfl

/-! ### `setSound` -/

@[simp] theorem setSound_v (s : State) (b : Byte) : (s.setSound b).v = s.v := rfl
@[simp] theorem setSound_i (s : State) (b : Byte) : (s.setSound b).i = s.i := rfl
@[simp] theorem setSound_pc (s : State) (b : Byte) : (s.setSound b).pc = s.pc := rfl
@[simp] theorem setSound_sp (s : State) (b : Byte) : (s.setSound b).sp = s.sp := rfl
@[simp] theorem setSound_stack (s : State) (b : Byte) : (s.setSound b).stack = s.stack := rfl
@[simp] theorem setSound_dt (s : State) (b : Byte) : (s.setSound b).dt = s.dt := rfl
@[simp] theorem setSound_st (s : State) (b : Byte) : (s.setSound b).st = b := rfl
@[simp] theorem setSound_mem (s : State) (b : Byte) : (s.setSound b).mem = s.mem := rfl
@[simp] theorem setSound_fb (s : State) (b : Byte) : (s.setSound b).fb = s.fb := rfl
@[simp] theorem setSound_keys (s : State) (b : Byte) : (s.setSound b).keys = s.keys := rfl
@[simp] theorem setSound_halted (s : State) (b : Byte) : (s.setSound b).halted = s.halted := rfl
@[simp] theorem setSound_status (s : State) (b : Byte) : (s.setSound b).status = s.status := rfl
@[simp] theorem setSound_policy (s : State) (b : Byte) : (s.setSound b).policy = s.policy := rfl
@[simp] theorem setSound_draws (s : State) (b : Byte) : (s.setSound b).draws = s.draws := rfl

/-! ### `setPc` -/

@[simp] theorem setPc_v (s : State) (w : Word) : (s.setPc w).v = s.v := rfl
@[simp] theorem setPc_i (s : State) (w : Word) : (s.setPc w).i = s.i := rfl
@[simp] theorem setPc_pc (s : State) (w : Word) : (s.setPc w).pc = w := rfl
@[simp] theorem setPc_sp (s : State) (w : Word) : (s.setPc w).sp = s.sp := rfl
@[simp] theorem setPc_stack (s : State) (w : Word) : (s.setPc w).stack = s.stack := rfl
@[simp] theorem setPc_dt (s : State) (w : Word) : (s.setPc w).dt = s.dt := rfl
@[simp] theorem setPc_st (s : State) (w : Word) : (s.setPc w).st = s.st := rfl
@[simp] theorem setPc_mem (s : State) (w : Word) : (s.setPc w).mem = s.mem := rfl
@[simp] theorem setPc_fb (s : State) (w : Word) : (s.setPc w).fb = s.fb := rfl
@[simp] theorem setPc_keys (s : State) (w : Word) : (s.setPc w).keys = s.keys := rfl
@[simp] theorem setPc_halted (s : State) (w : Word) : (s.setPc w).halted = s.halted := rfl
@[simp] theorem setPc_status (s : State) (w : Word) : (s.setPc w).status = s.status := rfl
@[simp] theorem setPc_policy (s : State) (w : Word) : (s.setPc w).policy = s.policy := rfl
@[simp] theorem setPc_draws (s : State) (w : Word) : (s.setPc w).draws = s.draws := rfl

/-! ### `setStatus` -/

@[simp] theorem setStatus_v (s : State) (t : Status) : (s.setStatus t).v = s.v := rfl
@[simp] theorem setStatus_i (s : State) (t : Status) : (s.setStatus t).i = s.i := rfl
@[simp] theorem setStatus_pc (s : State) (t : Status) : (s.setStatus t).pc = s.pc := rfl
@[simp] theorem setStatus_sp (s : State) (t : Status) : (s.setStatus t).sp = s.sp := rfl
@[simp] theorem setStatus_stack (s : State) (t : Status) : (s.setStatus t).stack = s.stack := rfl
@[simp] theorem setStatus_dt (s : State) (t : Status) : (s.setStatus t).dt = s.dt := rfl
@[simp] theorem setStatus_st (s : State) (t : Status) : (s.setStatus t).st = s.st := rfl
@[simp] theorem setStatus_mem (s : State) (t : Status) : (s.setStatus t).mem = s.mem := rfl
@[simp] theorem setStatus_fb (s : State) (t : Status) : (s.setStatus t).fb = s.fb := rfl
@[simp] theorem setStatus_keys (s : State) (t : Status) : (s.setStatus t).keys = s.keys := rfl
@[simp] theorem setStatus_halted (s : State) (t : Status) : (s.setStatus t).halted = s.halted := rfl
@[simp] theorem setStatus_status (s : State) (t : Status) : (s.setStatus t).status = some t := rfl
@[simp] theorem setStatus_policy (s : State) (t : Status) : (s.setStatus t).policy = s.policy := rfl
@[simp] theorem setStatus_draws (s : State) (t : Status) : (s.setStatus t).draws = s.draws := rfl

/-! ### `takeDraw` -/

@[simp] theorem takeDraw_v (s : State) : (s.takeDraw).v = s.v := rfl
@[simp] theorem takeDraw_i (s : State) : (s.takeDraw).i = s.i := rfl
@[simp] theorem takeDraw_pc (s : State) : (s.takeDraw).pc = s.pc := rfl
@[simp] theorem takeDraw_sp (s : State) : (s.takeDraw).sp = s.sp := rfl
@[simp] theorem takeDraw_stack (s : State) : (s.takeDraw).stack = s.stack := rfl
@[simp] theorem takeDraw_dt (s : State) : (s.takeDraw).dt = s.dt := rfl
@[simp] theorem takeDraw_st (s : State) : (s.takeDraw).st = s.st := rfl
@[simp] theorem takeDraw_mem (s : State) : (s.takeDraw).mem = s.mem := rfl
@[simp] theorem takeDraw_fb (s : State) : (s.takeDraw).fb = s.fb := rfl
@[simp] theorem takeDraw_keys (s : State) : (s.takeDraw).keys = s.keys := rfl
@[simp] theorem takeDraw_halted (s : State) : (s.takeDraw).halted = s.halted := rfl
@[simp] theorem takeDraw_status (s : State) : (s.takeDraw).status = s.status := rfl
@[simp] theorem takeDraw_policy (s : State) : (s.takeDraw).policy = s.policy := rfl
@[simp] theorem takeDraw_draws (s : State) : (s.takeDraw).draws = s.draws + 1 := rfl

/-! ### `poke` -/

@[simp] theorem poke_v (s : State) (a : Addr) (b : Byte) : (s.poke a b).v = s.v := rfl
@[simp] theorem poke_i (s : State) (a : Addr) (b : Byte) : (s.poke a b).i = s.i := rfl
@[simp] theorem poke_pc (s : State) (a : Addr) (b : Byte) : (s.poke a b).pc = s.pc := rfl
@[simp] theorem poke_sp (s : State) (a : Addr) (b : Byte) : (s.poke a b).sp = s.sp := rfl
@[simp] theorem poke_stack (s : State) (a : Addr) (b : Byte) : (s.poke a b).stack = s.stack := rfl
@[simp] theorem poke_dt (s : State) (a : Addr) (b : Byte) : (s.poke a b).dt = s.dt := rfl
@[simp] theorem poke_st (s : State) (a : Addr) (b : Byte) : (s.poke a b).st = s.st := rfl
@[simp] theorem poke_mem (s : State) (a : Addr) (b : Byte) : (s.poke a b).mem = Memory.write s.mem a.toNat b := rfl
@[simp] theorem poke_fb (s : State) (a : Addr) (b : Byte) : (s.poke a b).fb = s.fb := rfl
@[simp] theorem poke_keys (s : State) (a : Addr) (b : Byte) : (s.poke a b).keys = s.keys := rfl
@[simp] theorem poke_halted (s : State) (a : Addr) (b : Byte) : (s.poke a b).halted = s.halted := rfl
@[simp] theorem poke_status (s : State) (a : Addr) (b : Byte) : (s.poke a b).status = s.status := rfl
@[simp] theorem poke_policy (s : State) (a : Addr) (b : Byte) : (s.poke a b).policy = s.policy := rfl
@[simp] theorem poke_draws (s : State) (a : Addr) (b : Byte) : (s.poke a b).draws = s.draws := rfl

/-! ### `setFlag` -/

@[simp] theorem setFlag_v (s : State) (c : Bool) : (s.setFlag c).v = s.v.set vf (flagByte c) := rfl
@[simp] theorem setFlag_i (s : State) (c : Bool) : (s.setFlag c).i = s.i := rfl
@[simp] theorem setFlag_pc (s : State) (c : Bool) : (s.setFlag c).pc = s.pc := rfl
@[simp] theorem setFlag_sp (s : State) (c : Bool) : (s.setFlag c).sp = s.sp := rfl
@[simp] theorem setFlag_stack (s : State) (c : Bool) : (s.setFlag c).stack = s.stack := rfl
@[simp] theorem setFlag_dt (s : State) (c : Bool) : (s.setFlag c).dt = s.dt := rfl
@[simp] theorem setFlag_st (s : State) (c : Bool) : (s.setFlag c).st = s.st := rfl
@[simp] theorem setFlag_mem (s : State) (c : Bool) : (s.setFlag c).mem = s.mem := rfl
@[simp] theorem setFlag_fb (s : State) (c : Bool) : (s.setFlag c).fb = s.fb := rfl
@[simp] theorem setFlag_keys (s : State) (c : Bool) : (s.setFlag c).keys = s.keys := rfl
@[simp] theorem setFlag_halted (s : State) (c : Bool) : (s.setFlag c).halted = s.halted := rfl
@[simp] theorem setFlag_status (s : State) (c : Bool) : (s.setFlag c).status = s.status := rfl
@[simp] theorem setFlag_policy (s : State) (c : Bool) : (s.setFlag c).policy = s.policy := rfl
@[simp] theorem setFlag_draws (s : State) (c : Bool) : (s.setFlag c).draws = s.draws := rfl

/-! ### `loadRegs` -/

@[simp] theorem loadRegs_i (s : State) (x : Reg) : (s.loadRegs x).i = s.i := rfl
@[simp] theorem loadRegs_pc (s : State) (x : Reg) : (s.loadRegs x).pc = s.pc := rfl
@[simp] theorem loadRegs_sp (s : State) (x : Reg) : (s.loadRegs x).sp = s.sp := rfl
@[simp] theorem loadRegs_stack (s : State) (x : Reg) : (s.loadRegs x).stack = s.stack := rfl
@[simp] theorem loadRegs_dt (s : State) (x : Reg) : (s.loadRegs x).dt = s.dt := rfl
@[simp] theorem loadRegs_st (s : State) (x : Reg) : (s.loadRegs x).st = s.st := rfl
@[simp] theorem loadRegs_mem (s : State) (x : Reg) : (s.loadRegs x).mem = s.mem := rfl
@[simp] theorem loadRegs_fb (s : State) (x : Reg) : (s.loadRegs x).fb = s.fb := rfl
@[simp] theorem loadRegs_keys (s : State) (x : Reg) : (s.loadRegs x).keys = s.keys := rfl
@[simp] theorem loadRegs_halted (s : State) (x : Reg) : (s.loadRegs x).halted = s.halted := rfl
@[simp] theorem loadRegs_status (s : State) (x : Reg) : (s.loadRegs x).status = s.status := rfl
@[simp] theorem loadRegs_policy (s : State) (x : Reg) : (s.loadRegs x).policy = s.policy := rfl
@[simp] theorem loadRegs_draws (s : State) (x : Reg) : (s.loadRegs x).draws = s.draws := rfl

/-! ### `setKeys` -/

@[simp] theorem setKeys_v (s : State) (k : Vector Byte 16) : (s.setKeys k).v = s.v := rfl
@[simp] theorem setKeys_i (s : State) (k : Vector Byte 16) : (s.setKeys k).i = s.i := rfl
@[simp] theorem setKeys_pc (s : State) (k : Vector Byte 16) : (s.setKeys k).pc = s.pc := rfl
@[simp] theorem setKeys_sp (s : State) (k : Vector Byte 16) : (s.setKeys k).sp = s.sp := rfl
@[simp] theorem setKeys_stack (s : State) (k : Vector Byte 16) : (s.setKeys k).stack = s.stack := rfl
@[simp] theorem setKeys_dt (s : State) (k : Vector Byte 16) : (s.setKeys k).dt = s.dt := rfl
@[simp] theorem setKeys_st (s : State) (k : Vector Byte 16) : (s.setKeys k).st = s.st := rfl
@[simp] theorem setKeys_mem (s : State) (k : Vector Byte 16) : (s.setKeys k).mem = s.mem := rfl
@[simp] theorem setKeys_fb (s : State) (k : Vector Byte 16) : (s.setKeys k).fb = s.fb := rfl
@[simp] theorem setKeys_keys (s : State) (k : Vector Byte 16) : (s.setKeys k).keys = k := rfl
@[simp] theorem setKeys_halted (s : State) (k : Vector Byte 16) : (s.setKeys k).halted = s.halted := rfl
@[simp] theorem setKeys_status (s : State) (k : Vector Byte 16) : (s.setKeys k).status = s.status := rfl
@[simp] theorem setKeys_policy (s : State) (k : Vector Byte 16) : (s.setKeys k).policy = s.policy := rfl
@[simp] theorem setKeys_draws (s : State) (k : Vector Byte 16) : (s.setKeys k).draws = s.draws := rfl

/-! ### `timerTick` -/

@[simp] theorem timerTick_v (s : State) : s.timerTick.v = s.v := rfl
@[simp] theorem timerTick_i (s : State) : s.timerTick.i = s.i := rfl
@[simp] theorem timerTick_pc (s : State) : s.timerTick.pc = s.pc := rfl
@[simp] theorem timerTick_sp (s : State) : s.timerTick.sp = s.sp := rfl
@[simp] theorem timerTick_stack (s : State) : s.timerTick.stack = s.stack := rfl
@[simp] theorem timerTick_dt (s : State) : s.timerTick.dt = decrementTimer s.dt := rfl
@[simp] theorem timerTick_st (s : State) : s.timerTick.st = decrementTimer s.st := rfl
@[simp] theorem timerTick_mem (s : State) : s.timerTick.mem = s.mem := rfl
@[simp] theorem timerTick_fb (s : State) : s.timerTick.fb = s.fb := rfl
@[simp] theorem timerTick_keys (s : State) : s.timerTick.keys = s.keys := rfl
@[simp] theorem timerTick_halted (s : State) : s.timerTick.halted = s.halted := rfl
@[simp] theorem timerTick_status (s : State) : s.timerTick.status = s.status := rfl
@[simp] theorem timerTick_policy (s : State) : s.timerTick.policy = s.policy := rfl
@[simp] theorem timerTick_draws (s : State) : s.timerTick.draws = s.draws := rfl

/-! ### `memWrite` -/

@[simp] theorem memWrite_v (s : State) (a : Addr) (b : Byte) : (s.memWrite a b).v = s.v := by
  unfold State.memWrite; split <;> rfl
@[simp] theorem memWrite_i (s : State) (a : Addr) (b : Byte) : (s.memWrite a b).i = s.i := by
  unfold State.memWrite; split <;> rfl
@[simp] theorem memWrite_pc (s : State) (a : Addr) (b : Byte) : (s.memWrite a b).pc = s.pc := by
  unfold State.memWrite; split <;> rfl
@[simp] theorem memWrite_sp (s : State) (a : Addr) (b : Byte) : (s.memWrite a b).sp = s.sp := by
  unfold State.memWrite; split <;> rfl
@[simp] theorem memWrite_stack (s : State) (a : Addr) (b : Byte) : (s.memWrite a b).stack = s.stack := by
  unfold State.memWrite; split <;> rfl
@[simp] theorem memWrite_dt (s : State) (a : Addr) (b : Byte) : (s.memWrite a b).dt = s.dt := by
  unfold State.memWrite; split <;> rfl
@[simp] theorem memWrite_st (s : State) (a : Addr) (b : Byte) : (s.memWrite a b).st = s.st := by
  unfold State.memWrite; split <;> rfl
@[simp] theorem memWrite_fb (s : State) (a : Addr) (b : Byte) : (s.memWrite a b).fb = s.fb := by
  unfold State.memWrite; split <;> rfl
@[simp] theorem memWrite_keys (s : State) (a : Addr) (b : Byte) : (s.memWrite a b).keys = s.keys := by
  unfold State.memWrite; split <;> rfl
@[simp] theorem memWrite_halted (s : State) (a : Addr) (b : Byte) : (s.memWrite a b).halted = s.halted := by
  unfold State.memWrite; split <;> rfl
@[simp] theorem memWrite_status (s : State) (a : Addr) (b : Byte) : (s.memWrite a b).status = s.status := by
  unfold State.memWrite; split <;> rfl
@[simp] theorem memWrite_policy (s : State) (a : Addr) (b : Byte) : (s.memWrite a b).policy = s.policy := by
  unfold State.memWrite; split <;> rfl
@[simp] theorem memWrite_draws (s : State) (a : Addr) (b : Byte) : (s.memWrite a b).draws = s.draws := by
  unfold State.memWrite; split <;> rfl

/-! ### `bumpIndex` -/

@[simp] theorem bumpIndex_v (x : Reg) (s : State) : (bumpIndex x s).v = s.v := by
  unfold bumpIndex; split <;> rfl
theorem bumpIndex_i (x : Reg) (s : State) :
    (bumpIndex x s).i = if s.policy.ldstIncrementsI then zext16 (addrAt s.i (x.val + 1)) else s.i := by
  unfold bumpIndex; split <;> rfl
@[simp] theorem bumpIndex_pc (x : Reg) (s : State) : (bumpIndex x s).pc = s.pc := by
  unfold bumpIndex; split <;> rfl
@[simp] theorem bumpIndex_sp (x : Reg) (s : State) : (bumpIndex x s).sp = s.sp := by
  unfold bumpIndex; split <;> rfl
@[simp] theorem bumpIndex_stack (x : Reg) (s : State) : (bumpIndex x s).stack = s.stack := by
  unfold bumpIndex; split <;> rfl
@[simp] theorem bumpIndex_dt (x : Reg) (s : State) : (bumpIndex x s).dt = s.dt := by
  unfold bumpIndex; split <;> rfl
@[simp] theorem bumpIndex_st (x : Reg) (s : State) : (bumpIndex x s).st = s.st := by
  unfold bumpIndex; split <;> rfl
@[simp] theorem bumpIndex_mem (x : Reg) (s : State) : (bumpIndex x s).mem = s.mem := by
  unfold bumpIndex; split <;> rfl
@[simp] theorem bumpIndex_fb (x : Reg) (s : State) : (bumpIndex x s).fb = s.fb := by
  unfold bumpIndex; split <;> rfl
@[simp] theorem bumpIndex_keys (x : Reg) (s : State) : (bumpIndex x s).keys = s.keys := by
  unfold bumpIndex; split <;> rfl
@[simp] theorem bumpIndex_halted (x : Reg) (s : State) : (bumpIndex x s).halted = s.halted := by
  unfold bumpIndex; split <;> rfl
@[simp] theorem bumpIndex_status (x : Reg) (s : State) : (bumpIndex x s).status = s.status := by
  unfold bumpIndex; split <;> rfl
@[simp] theorem bumpIndex_policy (x : Reg) (s : State) : (bumpIndex x s).policy = s.policy := by
  unfold bumpIndex; split <;> rfl
@[simp] theorem bumpIndex_draws (x : Reg) (s : State) : (bumpIndex x s).draws = s.draws := by
  unfold bumpIndex; split <;> rfl

/-! ### `storeFrom` writes memory alone -/

@[simp] theorem storeFrom_v (b : Word) (k : Nat) (vs : List Byte) (s : State) : (storeFrom b k vs s).v = s.v := by
  induction vs generalizing k s with
  | nil => rfl
  | cons v vs ih => simp [storeFrom, ih]
@[simp] theorem storeFrom_i (b : Word) (k : Nat) (vs : List Byte) (s : State) : (storeFrom b k vs s).i = s.i := by
  induction vs generalizing k s with
  | nil => rfl
  | cons v vs ih => simp [storeFrom, ih]
@[simp] theorem storeFrom_pc (b : Word) (k : Nat) (vs : List Byte) (s : State) : (storeFrom b k vs s).pc = s.pc := by
  induction vs generalizing k s with
  | nil => rfl
  | cons v vs ih => simp [storeFrom, ih]
@[simp] theorem storeFrom_sp (b : Word) (k : Nat) (vs : List Byte) (s : State) : (storeFrom b k vs s).sp = s.sp := by
  induction vs generalizing k s with
  | nil => rfl
  | cons v vs ih => simp [storeFrom, ih]
@[simp] theorem storeFrom_stack (b : Word) (k : Nat) (vs : List Byte) (s : State) : (storeFrom b k vs s).stack = s.stack := by
  induction vs generalizing k s with
  | nil => rfl
  | cons v vs ih => simp [storeFrom, ih]
@[simp] theorem storeFrom_dt (b : Word) (k : Nat) (vs : List Byte) (s : State) : (storeFrom b k vs s).dt = s.dt := by
  induction vs generalizing k s with
  | nil => rfl
  | cons v vs ih => simp [storeFrom, ih]
@[simp] theorem storeFrom_st (b : Word) (k : Nat) (vs : List Byte) (s : State) : (storeFrom b k vs s).st = s.st := by
  induction vs generalizing k s with
  | nil => rfl
  | cons v vs ih => simp [storeFrom, ih]
@[simp] theorem storeFrom_fb (b : Word) (k : Nat) (vs : List Byte) (s : State) : (storeFrom b k vs s).fb = s.fb := by
  induction vs generalizing k s with
  | nil => rfl
  | cons v vs ih => simp [storeFrom, ih]
@[simp] theorem storeFrom_keys (b : Word) (k : Nat) (vs : List Byte) (s : State) : (storeFrom b k vs s).keys = s.keys := by
  induction vs generalizing k s with
  | nil => rfl
  | cons v vs ih => simp [storeFrom, ih]
@[simp] theorem storeFrom_halted (b : Word) (k : Nat) (vs : List Byte) (s : State) : (storeFrom b k vs s).halted = s.halted := by
  induction vs generalizing k s with
  | nil => rfl
  | cons v vs ih => simp [storeFrom, ih]
@[simp] theorem storeFrom_status (b : Word) (k : Nat) (vs : List Byte) (s : State) : (storeFrom b k vs s).status = s.status := by
  induction vs generalizing k s with
  | nil => rfl
  | cons v vs ih => simp [storeFrom, ih]
@[simp] theorem storeFrom_policy (b : Word) (k : Nat) (vs : List Byte) (s : State) : (storeFrom b k vs s).policy = s.policy := by
  induction vs generalizing k s with
  | nil => rfl
  | cons v vs ih => simp [storeFrom, ih]
@[simp] theorem storeFrom_draws (b : Word) (k : Nat) (vs : List Byte) (s : State) : (storeFrom b k vs s).draws = s.draws := by
  induction vs generalizing k s with
  | nil => rfl
  | cons v vs ih => simp [storeFrom, ih]

/-! ### Registers -/

@[simp] theorem reg_setReg_self (s : State) (x : Reg) (b : Byte) : (s.setReg x b).reg x = b := by
  simp [State.reg, State.setReg]

theorem reg_setReg_of_ne (s : State) {x y : Reg} (b : Byte) (h : y ≠ x) : (s.setReg x b).reg y = s.reg y := by
  have : x.val ≠ y.val := fun e => h (Fin.ext e.symm)
  simp [State.reg, State.setReg, Vector.getElem_set_ne, this]

theorem reg_setReg (s : State) (x y : Reg) (b : Byte) : (s.setReg x b).reg y = if y = x then b else s.reg y := by
  split
  · subst_vars; simp
  · exact reg_setReg_of_ne s b ‹_›

@[simp] theorem reg_setFlag_vf (s : State) (c : Bool) : (s.setFlag c).reg vf = flagByte c := reg_setReg_self ..

theorem reg_setFlag_of_ne (s : State) {y : Reg} (c : Bool) (h : y ≠ vf) : (s.setFlag c).reg y = s.reg y :=
  reg_setReg_of_ne s _ h

/-- A register reads the same in two states with the same register file. -/
theorem reg_congr {s t : State} (h : t.v = s.v) (x : Reg) : t.reg x = s.reg x := by simp [State.reg, h]

theorem reg_loadRegs (s : State) (x y : Reg) :
    (s.loadRegs x).reg y = if y ≤ x then s.memRead (addrAt s.i y.val) else s.reg y := by
  simp [State.reg, State.loadRegs]

/-! ### The accessors depend on one field each -/

theorem memRead_congr {s t : State} (h : t.mem = s.mem) (a : Addr) : t.memRead a = s.memRead a := by
  simp [State.memRead, h]

theorem pixel_congr {s t : State} (h : t.fb = s.fb) (y : Row) (x : Column) : t.pixel y x = s.pixel y x := by
  simp [State.pixel, h]

theorem fetch_congr {s t : State} (h : t.mem = s.mem) (p : Word) : t.fetch p = s.fetch p := by
  simp [State.fetch, memRead_congr h]

theorem leastPressed_congr {s t : State} (h : t.keys = s.keys) : t.leastPressed = s.leastPressed := by
  have : t.pressed = s.pressed := by funext k; simp [State.pressed, h]
  simp [State.leastPressed, this]

/-! ### What the accessors read after an update of another field -/

@[simp] theorem reg_setIndex (s : State) (w : Word) (x : Reg) : (s.setIndex w).reg x = s.reg x := rfl
@[simp] theorem reg_setDelay (s : State) (b : Byte) (x : Reg) : (s.setDelay b).reg x = s.reg x := rfl
@[simp] theorem reg_setSound (s : State) (b : Byte) (x : Reg) : (s.setSound b).reg x = s.reg x := rfl
@[simp] theorem reg_setPc (s : State) (w : Word) (x : Reg) : (s.setPc w).reg x = s.reg x := rfl
@[simp] theorem reg_setStatus (s : State) (t : Status) (x : Reg) : (s.setStatus t).reg x = s.reg x := rfl
@[simp] theorem reg_takeDraw (s : State) (x : Reg) : (s.takeDraw).reg x = s.reg x := rfl
@[simp] theorem reg_poke (s : State) (a : Addr) (b : Byte) (x : Reg) : (s.poke a b).reg x = s.reg x := rfl
@[simp] theorem reg_timerTick (s : State) (x : Reg) : (s.timerTick).reg x = s.reg x := rfl
@[simp] theorem reg_setKeys (s : State) (k : Vector Byte 16) (x : Reg) : (s.setKeys k).reg x = s.reg x := rfl

@[simp] theorem memRead_setReg (s : State) (x : Reg) (b : Byte) (c : Addr) : (s.setReg x b).memRead c = s.memRead c :=
  rfl
@[simp] theorem memRead_setFlag (s : State) (f : Bool) (c : Addr) : (s.setFlag f).memRead c = s.memRead c :=
  rfl
@[simp] theorem memRead_loadRegs (s : State) (x : Reg) (c : Addr) : (s.loadRegs x).memRead c = s.memRead c :=
  rfl
@[simp] theorem memRead_setIndex (s : State) (w : Word) (c : Addr) : (s.setIndex w).memRead c = s.memRead c :=
  rfl
@[simp] theorem memRead_setDelay (s : State) (b : Byte) (c : Addr) : (s.setDelay b).memRead c = s.memRead c :=
  rfl
@[simp] theorem memRead_setSound (s : State) (b : Byte) (c : Addr) : (s.setSound b).memRead c = s.memRead c :=
  rfl
@[simp] theorem memRead_setPc (s : State) (w : Word) (c : Addr) : (s.setPc w).memRead c = s.memRead c :=
  rfl
@[simp] theorem memRead_setStatus (s : State) (t : Status) (c : Addr) : (s.setStatus t).memRead c = s.memRead c :=
  rfl
@[simp] theorem memRead_takeDraw (s : State) (c : Addr) : (s.takeDraw).memRead c = s.memRead c :=
  rfl
@[simp] theorem memRead_timerTick (s : State) (c : Addr) : (s.timerTick).memRead c = s.memRead c :=
  rfl
@[simp] theorem memRead_setKeys (s : State) (k : Vector Byte 16) (c : Addr) : (s.setKeys k).memRead c = s.memRead c :=
  rfl

@[simp] theorem pixel_setReg (s : State) (x : Reg) (b : Byte) (py : Row) (px : Column) :
    (s.setReg x b).pixel py px = s.pixel py px := rfl
@[simp] theorem pixel_setFlag (s : State) (c : Bool) (py : Row) (px : Column) :
    (s.setFlag c).pixel py px = s.pixel py px := rfl
@[simp] theorem pixel_loadRegs (s : State) (x : Reg) (py : Row) (px : Column) :
    (s.loadRegs x).pixel py px = s.pixel py px := rfl
@[simp] theorem pixel_setIndex (s : State) (w : Word) (py : Row) (px : Column) :
    (s.setIndex w).pixel py px = s.pixel py px := rfl
@[simp] theorem pixel_setDelay (s : State) (b : Byte) (py : Row) (px : Column) :
    (s.setDelay b).pixel py px = s.pixel py px := rfl
@[simp] theorem pixel_setSound (s : State) (b : Byte) (py : Row) (px : Column) :
    (s.setSound b).pixel py px = s.pixel py px := rfl
@[simp] theorem pixel_setPc (s : State) (w : Word) (py : Row) (px : Column) :
    (s.setPc w).pixel py px = s.pixel py px := rfl
@[simp] theorem pixel_setStatus (s : State) (t : Status) (py : Row) (px : Column) :
    (s.setStatus t).pixel py px = s.pixel py px := rfl
@[simp] theorem pixel_takeDraw (s : State) (py : Row) (px : Column) :
    (s.takeDraw).pixel py px = s.pixel py px := rfl
@[simp] theorem pixel_timerTick (s : State) (py : Row) (px : Column) :
    (s.timerTick).pixel py px = s.pixel py px := rfl
@[simp] theorem pixel_setKeys (s : State) (k : Vector Byte 16) (py : Row) (px : Column) :
    (s.setKeys k).pixel py px = s.pixel py px := rfl
@[simp] theorem pixel_poke (s : State) (a : Addr) (b : Byte) (py : Row) (px : Column) :
    (s.poke a b).pixel py px = s.pixel py px := rfl

/-- The state after reset is the launch with the default parameters. -/
theorem reset_eq_resetWith : State.reset = State.resetWith {} := by decide

end Sys2Proof.Machine
end

