-- ==== Sys2Proof/Laws/Draw.lean ====
section
/-! SUPPORT. What a draw does to each pixel and to the collision (spec/43_display.md R214 to R216). -/

namespace Sys2Proof.Machine

theorem pixelOf_setPixel (fb : Framebuffer) (y y' : Row) (x x' : Column) (p : Byte) :
    pixelOf (setPixel fb y x p) y' x' = if y' = y ∧ x' = x then p else pixelOf fb y' x' := by
  simp only [pixelOf, setPixel, Fin.getElem_fin, Vector.getElem_set, ← Fin.ext_iff]
  by_cases hy : y = y'
  · subst hy
    by_cases hx : x = x'
    · subst hx; simp
    · have hx' : ¬ x' = x := fun e => hx e.symm
      simp [← Fin.ext_iff, hx, hx']
  · have hy' : ¬ y' = y := fun e => hy e.symm
    simp [hy, hy']

/-- Two framebuffers with the same pixels are equal. -/
theorem framebuffer_ext {f g : Framebuffer} (h : ∀ y x, pixelOf f y x = pixelOf g y x) : f = g := by
  apply Vector.ext
  intro y hy
  apply Vector.ext
  intro x hx
  exact h ⟨y, hy⟩ ⟨x, hx⟩

@[simp] theorem pixelOf_clear (y : Row) (x : Column) : pixelOf clearFramebuffer y x = 0 := by
  simp [pixelOf, clearFramebuffer]

theorem spriteColumn_inj {ox : Byte} {c d : Nat} (h : spriteColumn ox c = spriteColumn ox d) (hc : c < d + 64)
    (hd : d < c + 64) : c = d := by
  have := congrArg Fin.val h
  simp only [spriteColumn, Fin.ofNat] at this
  omega

theorem spriteLine_inj {oy : Byte} {r q : Nat} (h : spriteLine oy r = spriteLine oy q) (hr : r < q + 32)
    (hq : q < r + 32) : r = q := by
  have := congrArg Fin.val h
  simp only [spriteLine, Fin.ofNat] at this
  omega

/-! ### Columns of one row -/

theorem drawPixel_fst (ox oy : Byte) (r : Nat) (row : Byte) (d : Framebuffer × Bool) (c : Nat) (y : Row) (x : Column) :
    pixelOf (drawPixel ox oy r row d c).1 y x =
      if y = spriteLine oy r ∧ x = spriteColumn ox c then (pixelUpdate (pixelOf d.1 y x) (spriteBit row c)).1
      else pixelOf d.1 y x := by
  simp only [drawPixel, pixelOf_setPixel]
  split
  · obtain ⟨rfl, rfl⟩ := ‹_ ∧ _›; rfl
  · rfl

theorem pixelUpdate_snd (p : Byte) (b : Bool) : (pixelUpdate p b).2 = true ↔ b = true ∧ p ≠ 0 := by
  cases b <;> simp [pixelUpdate]
  split <;> simp [*]

theorem drawPixels_other (ox oy : Byte) (r : Nat) (row : Byte) (cs : List Nat) (d : Framebuffer × Bool) {y : Row}
    {x : Column} (h : ∀ c ∈ cs, ¬(y = spriteLine oy r ∧ x = spriteColumn ox c)) :
    pixelOf (cs.foldl (drawPixel ox oy r row) d).1 y x = pixelOf d.1 y x := by
  induction cs generalizing d with
  | nil => rfl
  | cons c cs ih =>
    rw [List.foldl_cons, ih _ fun c' hc' => h c' (List.mem_cons_of_mem _ hc'), drawPixel_fst,
      if_neg (h c List.mem_cons_self)]

theorem drawPixels_at (ox oy : Byte) (r : Nat) (row : Byte) (cs : List Nat) (d : Framebuffer × Bool) (hn : cs.Nodup)
    (hlt : ∀ c ∈ cs, c < 64) {c : Nat} (hc : c ∈ cs) :
    pixelOf (cs.foldl (drawPixel ox oy r row) d).1 (spriteLine oy r) (spriteColumn ox c) =
      (pixelUpdate (pixelOf d.1 (spriteLine oy r) (spriteColumn ox c)) (spriteBit row c)).1 := by
  induction cs generalizing d with
  | nil => simp at hc
  | cons e cs ih =>
    have hlt' : ∀ c ∈ cs, c < 64 := fun c h => hlt c (List.mem_cons_of_mem _ h)
    rw [List.nodup_cons] at hn
    rw [List.foldl_cons]
    rcases List.mem_cons.1 hc with rfl | hc
    · rw [drawPixels_other, drawPixel_fst, if_pos ⟨rfl, rfl⟩]
      rintro c' hc' ⟨-, e⟩
      have h1 := hlt c List.mem_cons_self
      have h2 := hlt' c' hc'
      exact hn.1 (spriteColumn_inj e (by omega) (by omega) ▸ hc')
    · rw [ih _ hn.2 hlt' hc, drawPixel_fst, if_neg]
      rintro ⟨-, e'⟩
      have h1 := hlt e List.mem_cons_self
      have h2 := hlt' c hc
      exact hn.1 (spriteColumn_inj e' (by omega) (by omega) ▸ hc)

theorem drawPixels_hit (ox oy : Byte) (r : Nat) (row : Byte) (cs : List Nat) (d : Framebuffer × Bool) (hn : cs.Nodup)
    (hlt : ∀ c ∈ cs, c < 64) :
    (cs.foldl (drawPixel ox oy r row) d).2 = true ↔
      d.2 = true ∨ ∃ c ∈ cs, spriteBit row c = true ∧ pixelOf d.1 (spriteLine oy r) (spriteColumn ox c) ≠ 0 := by
  induction cs generalizing d with
  | nil => simp
  | cons e cs ih =>
    have hlt' : ∀ c ∈ cs, c < 64 := fun c h => hlt c (List.mem_cons_of_mem _ h)
    rw [List.nodup_cons] at hn
    rw [List.foldl_cons, ih _ hn.2 hlt']
    have hsame : ∀ c ∈ cs, pixelOf (drawPixel ox oy r row d e).1 (spriteLine oy r) (spriteColumn ox c) =
        pixelOf d.1 (spriteLine oy r) (spriteColumn ox c) := by
      intro c hc
      rw [drawPixel_fst, if_neg]
      rintro ⟨-, e'⟩
      have h1 := hlt e List.mem_cons_self
      have h2 := hlt' c hc
      exact hn.1 (spriteColumn_inj e' (by omega) (by omega) ▸ hc)
    have hd : (drawPixel ox oy r row d e).2 = true ↔
        d.2 = true ∨ spriteBit row e = true ∧ pixelOf d.1 (spriteLine oy r) (spriteColumn ox e) ≠ 0 := by
      simp only [drawPixel, Bool.or_eq_true, pixelUpdate_snd]
    rw [hd, List.exists_mem_cons_iff, or_assoc]
    refine or_congr Iff.rfl (or_congr Iff.rfl ⟨?_, ?_⟩)
    · rintro ⟨c, hc, hb, hp⟩; exact ⟨c, hc, hb, hsame c hc ▸ hp⟩
    · rintro ⟨c, hc, hb, hp⟩; exact ⟨c, hc, hb, (hsame c hc).symm ▸ hp⟩

/-! ### One row -/

theorem range8_lt : ∀ c ∈ List.range 8, c < 64 := fun c h => by
  have := List.mem_range.1 h
  omega

/-- A row of a draw: a pixel of another line, or of no column of it, is as before. -/
theorem drawRow_other (ox oy : Byte) (r : Nat) (row : Byte) (d : Framebuffer × Bool) {y : Row} {x : Column}
    (h : ∀ c, c < 8 → ¬(y = spriteLine oy r ∧ x = spriteColumn ox c)) :
    pixelOf (drawRow ox oy r row d).1 y x = pixelOf d.1 y x :=
  drawPixels_other _ _ _ _ _ _ fun c hc => h c (List.mem_range.1 hc)

theorem drawRow_at (ox oy : Byte) (r : Nat) (row : Byte) (d : Framebuffer × Bool) {c : Nat} (hc : c < 8) :
    pixelOf (drawRow ox oy r row d).1 (spriteLine oy r) (spriteColumn ox c) =
      (pixelUpdate (pixelOf d.1 (spriteLine oy r) (spriteColumn ox c)) (spriteBit row c)).1 :=
  drawPixels_at _ _ _ _ _ _ List.nodup_range range8_lt (List.mem_range.2 hc)

theorem drawRow_hit (ox oy : Byte) (r : Nat) (row : Byte) (d : Framebuffer × Bool) :
    (drawRow ox oy r row d).2 = true ↔
      d.2 = true ∨ ∃ c, c < 8 ∧ spriteBit row c = true ∧ pixelOf d.1 (spriteLine oy r) (spriteColumn ox c) ≠ 0 := by
  simp only [drawRow, drawPixels_hit _ _ _ _ _ _ List.nodup_range range8_lt, List.mem_range]

/-! ### All rows -/

/-- A pixel no (row, column) of the draw addresses is as before. -/
theorem drawRows_other (ox oy : Byte) (r : Nat) (rows : List Byte) (d : Framebuffer × Bool) {y : Row} {x : Column}
    (h : ∀ j c, j < rows.length → c < 8 → ¬(y = spriteLine oy (r + j) ∧ x = spriteColumn ox c)) :
    pixelOf (drawRows ox oy r rows d).1 y x = pixelOf d.1 y x := by
  induction rows generalizing r d with
  | nil => rfl
  | cons row rows ih =>
    rw [drawRows, ih, drawRow_other]
    · intro c hc; exact h 0 c (by simp) hc
    · intro j c hj hc
      have := h (j + 1) c (by simpa using hj) hc
      rwa [show r + (j + 1) = r + 1 + j by omega] at this

/-- The pixel of sprite row `j` and column `c` gets the pixel update of R216, applied to what it was before the draw. -/
theorem drawRows_at (ox oy : Byte) (r : Nat) (rows : List Byte) (d : Framebuffer × Bool) (hlen : rows.length ≤ 32)
    {j c : Nat} (hj : j < rows.length) (hc : c < 8) :
    pixelOf (drawRows ox oy r rows d).1 (spriteLine oy (r + j)) (spriteColumn ox c) =
      (pixelUpdate (pixelOf d.1 (spriteLine oy (r + j)) (spriteColumn ox c)) (spriteBit rows[j] c)).1 := by
  induction rows generalizing r d j with
  | nil => simp at hj
  | cons row rows ih =>
    simp only [List.length_cons] at hj hlen
    rw [drawRows]
    cases j with
    | zero =>
      rw [drawRows_other]
      · exact drawRow_at ox oy r row d hc
      · rintro j c' hj' - ⟨e, -⟩
        have := spriteLine_inj e (by omega) (by omega)
        omega
    | succ j =>
      rw [show r + (j + 1) = r + 1 + j by omega, ih _ _ (by omega) (by omega), drawRow_other]
      · rfl
      · rintro c' - ⟨e, -⟩
        have := spriteLine_inj e (by omega) (by omega)
        omega

/-- The collision: some set sprite bit met a pixel that was lit before the draw (R215, R216). -/
theorem drawRows_hit (ox oy : Byte) (r : Nat) (rows : List Byte) (d : Framebuffer × Bool) (hlen : rows.length ≤ 32) :
    (drawRows ox oy r rows d).2 = true ↔
      d.2 = true ∨ ∃ j c, ∃ hj : j < rows.length, c < 8 ∧ spriteBit rows[j] c = true ∧
        pixelOf d.1 (spriteLine oy (r + j)) (spriteColumn ox c) ≠ 0 := by
  induction rows generalizing r d with
  | nil => simp [drawRows]
  | cons row rows ih =>
    simp only [List.length_cons] at hlen
    have hsame : ∀ j c, j < rows.length → pixelOf (drawRow ox oy r row d).1 (spriteLine oy (r + 1 + j)) (spriteColumn ox c) =
        pixelOf d.1 (spriteLine oy (r + 1 + j)) (spriteColumn ox c) := by
      intro j c hj
      apply drawRow_other
      rintro c' - ⟨e, -⟩
      have := spriteLine_inj e (by omega) (by omega)
      omega
    rw [drawRows, ih _ _ (by omega), drawRow_hit, or_assoc]
    refine or_congr Iff.rfl ⟨?_, ?_⟩
    · rintro (⟨c, hc, hb, hp⟩ | ⟨j, c, hj, hc, hb, hp⟩)
      · exact ⟨0, c, by simp, hc, hb, hp⟩
      · refine ⟨j + 1, c, by simpa using hj, hc, hb, ?_⟩
        rw [show r + (j + 1) = r + 1 + j by omega, ← hsame j c hj]
        exact hp
    · rintro ⟨j, c, hj, hc, hb, hp⟩
      cases j with
      | zero => exact .inl ⟨c, hc, hb, hp⟩
      | succ j =>
        simp only [List.length_cons, Nat.add_lt_add_iff_right] at hj
        refine .inr ⟨j, c, hj, hc, hb, ?_⟩
        rw [hsame j c hj, ← show r + (j + 1) = r + 1 + j by omega]
        exact hp

end Sys2Proof.Machine
end

