-- ==== Sys2Proof/Laws/Memory.lean ====
section
/-! SUPPORT. The memory operations: a read after a write, the canonical form kept, and the bytes of a sequence of writes. -/

namespace Sys2Proof.Machine

/-! ### The list -/

theorem read_cons (a c : Nat) (v : Byte) (m : Memory) (h : Memory.read m a = unlistedByte a ∨ v ≠ unlistedByte a) :
    Memory.read (Memory.cons a v m) c = if c = a then v else Memory.read m c := by
  unfold Memory.cons
  split
  · rename_i hv
    rcases h with h | h
    · split
      · subst_vars; exact h
      · rfl
    · exact absurd hv h
  · rfl

/-- Below its first address a canonical memory lists nothing. -/
theorem read_of_wfFrom {lo : Nat} {m : Memory} (h : Memory.wfFrom lo m = true) {a : Nat} (ha : a < lo) :
    Memory.read m a = unlistedByte a := by
  induction m generalizing lo with
  | nil => rfl
  | cons c m ih =>
    obtain ⟨b, v⟩ := c
    simp only [Memory.wfFrom, Bool.and_eq_true, decide_eq_true_eq] at h
    have : a ≠ b := by omega
    simp [Memory.read, this, ih h.2 (by omega)]

theorem wfFrom_mono {lo lo' : Nat} {m : Memory} (h : Memory.wfFrom lo m = true) (hl : lo' ≤ lo) :
    Memory.wfFrom lo' m = true := by
  cases m with
  | nil => rfl
  | cons c m =>
    simp only [Memory.wfFrom, Bool.and_eq_true, decide_eq_true_eq] at h ⊢
    exact ⟨⟨⟨by omega, h.1.1.2⟩, h.1.2⟩, h.2⟩

theorem wfFrom_cons {lo a : Nat} {v : Byte} {m : Memory} (h : Memory.wfFrom (a + 1) m = true) (hl : lo ≤ a)
    (ha : a < 0x1000) : Memory.wfFrom lo (Memory.cons a v m) = true := by
  unfold Memory.cons
  split
  · exact wfFrom_mono h (by omega)
  · simp [Memory.wfFrom, *]

/-- A write keeps the canonical form. -/
theorem wfFrom_write {lo : Nat} {m : Memory} (h : Memory.wfFrom lo m = true) {a : Nat} (hl : lo ≤ a) (ha : a < 0x1000)
    (v : Byte) : Memory.wfFrom lo (Memory.write m a v) = true := by
  induction m generalizing lo with
  | nil => exact wfFrom_cons rfl hl ha
  | cons c m ih =>
    obtain ⟨b, u⟩ := c
    have h' := h
    simp only [Memory.wfFrom, Bool.and_eq_true, decide_eq_true_eq] at h
    unfold Memory.write
    split
    · exact wfFrom_cons (wfFrom_mono (lo := b) (by simp [Memory.wfFrom, h]) (by omega)) hl ha
    · split
      · subst_vars; exact wfFrom_cons h.2 hl ha
      · simp only [Memory.wfFrom, Bool.and_eq_true, decide_eq_true_eq]
        exact ⟨⟨⟨h.1.1.1, h.1.1.2⟩, h.1.2⟩, ih h.2 (by omega)⟩

/-- A write keeps the canonical form. -/
theorem wf_write {m : Memory} (h : Memory.wf m = true) {a : Nat} (ha : a < 0x1000) (v : Byte) :
    Memory.wf (Memory.write m a v) = true := wfFrom_write h (Nat.zero_le _) ha v

theorem read_write_from {lo : Nat} {m : Memory} (h : Memory.wfFrom lo m = true) (a c : Nat) (v : Byte) :
    Memory.read (Memory.write m a v) c = if c = a then v else Memory.read m c := by
  induction m generalizing lo with
  | nil => exact read_cons a c v [] (.inl rfl)
  | cons e m ih =>
    obtain ⟨b, u⟩ := e
    have hw := h
    simp only [Memory.wfFrom, Bool.and_eq_true, decide_eq_true_eq] at h
    unfold Memory.write
    split
    · apply read_cons
      left
      exact read_of_wfFrom (lo := b) (by simp [Memory.wfFrom, h]) ‹_›
    · split
      · subst_vars
        rw [read_cons _ _ _ _ (.inl (read_of_wfFrom h.2 (by omega)))]
        simp only [Memory.read]
        split <;> rfl
      · simp only [Memory.read, ih h.2]
        split <;> split <;> simp_all

/-- A read after a write, on a canonical memory: the byte written, and elsewhere the byte that was there. -/
theorem read_write {m : Memory} (h : Memory.wf m = true) (a c : Nat) (v : Byte) :
    Memory.read (Memory.write m a v) c = if c = a then v else Memory.read m c := read_write_from h a c v

/-- The canonical form is canonical: two memories in it that read the same everywhere are equal data. -/
theorem memory_ext_from {lo : Nat} {m n : Memory} (hm : Memory.wfFrom lo m = true) (hn : Memory.wfFrom lo n = true)
    (h : ∀ a, Memory.read m a = Memory.read n a) : m = n := by
  induction m generalizing lo n with
  | nil =>
    cases n with
    | nil => rfl
    | cons c n =>
      obtain ⟨b, v⟩ := c
      simp only [Memory.wfFrom, Bool.and_eq_true, decide_eq_true_eq] at hn
      have := h b
      simp [Memory.read] at this
      exact absurd this.symm hn.1.2
  | cons c m ih =>
    obtain ⟨b, v⟩ := c
    simp only [Memory.wfFrom, Bool.and_eq_true, decide_eq_true_eq] at hm
    cases n with
    | nil =>
      have := h b
      simp [Memory.read] at this
      exact absurd this hm.1.2
    | cons d n =>
      obtain ⟨b', v'⟩ := d
      simp only [Memory.wfFrom, Bool.and_eq_true, decide_eq_true_eq] at hn
      have hb := h b
      have hb' := h b'
      have hlt : ¬ b < b' := fun hlt => hm.1.2 (by
        simpa [Memory.read, Nat.ne_of_lt hlt, read_of_wfFrom hn.2 (show b < b' + 1 by omega)] using hb)
      have hgt : ¬ b' < b := fun hgt => hn.1.2 (by
        simpa [Memory.read, Nat.ne_of_lt hgt, read_of_wfFrom hm.2 (show b' < b + 1 by omega)] using hb'.symm)
      obtain rfl : b = b' := by omega
      obtain rfl : v = v' := by simpa [Memory.read] using hb
      rw [ih hm.2 hn.2 fun a => ?_]
      by_cases ha : a = b
      · subst ha; rw [read_of_wfFrom hm.2 (by omega), read_of_wfFrom hn.2 (by omega)]
      · simpa [Memory.read, ha] using h a

/-! ### Bytes of a state -/

theorem toNat_lt_4096 (a : Addr) : a.toNat < 0x1000 := a.isLt

theorem memRead_poke {s : State} (h : Memory.wf s.mem = true) (a c : Addr) (b : Byte) :
    (s.poke a b).memRead c = if c = a then b else s.memRead c := by
  simp [State.memRead, read_write h, BitVec.toNat_inj]

theorem wf_poke {s : State} (h : Memory.wf s.mem = true) (a : Addr) (b : Byte) : Memory.wf (s.poke a b).mem = true :=
  wf_write h (toNat_lt_4096 a) b

theorem wf_memWrite {s : State} (h : Memory.wf s.mem = true) (a : Addr) (b : Byte) :
    Memory.wf (s.memWrite a b).mem = true := by
  unfold State.memWrite
  split
  · exact wf_poke h a b
  · exact h

/-- What `MemWrite` does: the byte at the address where the policy lets the write land, nothing else (R53). -/
theorem memRead_memWrite {s : State} (h : Memory.wf s.mem = true) (a c : Addr) (b : Byte) :
    (s.memWrite a b).memRead c = if c = a ∧ writeLands s.policy.fontWrite a = true then b else s.memRead c := by
  unfold State.memWrite
  split
  · simp [memRead_poke h, *]
  · simp [*]

/-! ### Addresses -/

theorem toNat_addrAt (b : Word) (k : Nat) : (addrAt b k).toNat = (b.toNat + k) % 0x1000 := by
  simp only [addrAt, a12, BitVec.toNat_setWidth, BitVec.toNat_add, BitVec.toNat_ofNat]
  omega

/-- Addresses less than 4096 bytes apart are distinct (R58). -/
theorem addrAt_inj {b : Word} {j k : Nat} (h : addrAt b j = addrAt b k) (hj : j < k + 0x1000) (hk : k < j + 0x1000) :
    j = k := by
  have := congrArg BitVec.toNat h
  rw [toNat_addrAt, toNat_addrAt] at this
  omega

theorem toNat_advancePc (pc : Word) (n : Nat) : (advancePc pc n).toNat = (pc.toNat + n) % 0x1000 := by
  simp only [advancePc, zext16, BitVec.toNat_setWidth, toNat_addrAt]
  omega

theorem toNat_zext16 (a : Addr) : (zext16 a).toNat = a.toNat := by
  have := a.isLt
  simp only [zext16, BitVec.toNat_setWidth]
  omega

/-! ### A sequence of byte writes (R58) -/

theorem wf_storeFrom {s : State} (h : Memory.wf s.mem = true) (b : Word) (k : Nat) (vs : List Byte) :
    Memory.wf (storeFrom b k vs s).mem = true := by
  induction vs generalizing k s with
  | nil => exact h
  | cons v vs ih => exact ih (wf_memWrite h ..) _

/-- An address outside the sequence reads as before. -/
theorem memRead_storeFrom_of_ne {s : State} (h : Memory.wf s.mem = true) (b : Word) (k : Nat) (vs : List Byte) {a : Addr}
    (ha : ∀ j, j < vs.length → a ≠ addrAt b (k + j)) : (storeFrom b k vs s).memRead a = s.memRead a := by
  induction vs generalizing k s with
  | nil => rfl
  | cons v vs ih =>
    have h0 : a ≠ addrAt b k := by simpa using ha 0 (by simp)
    rw [storeFrom, ih (wf_memWrite h ..) _ fun j hj => ?_, memRead_memWrite h]
    · simp [h0]
    · have := ha (j + 1) (by simpa using hj)
      rwa [show k + (j + 1) = k + 1 + j by omega] at this

/-- Byte `j` of the sequence is at `a12(b + k + j)`, where the policy lets the write land; where it does not, the address
reads as before. -/
theorem memRead_storeFrom {s : State} (h : Memory.wf s.mem = true) (b : Word) (k : Nat) (vs : List Byte) {j : Nat}
    (hj : j < vs.length) (hlen : vs.length ≤ 0x1000) :
    (storeFrom b k vs s).memRead (addrAt b (k + j)) =
      if writeLands s.policy.fontWrite (addrAt b (k + j)) then vs[j] else s.memRead (addrAt b (k + j)) := by
  induction vs generalizing k s j with
  | nil => simp at hj
  | cons v vs ih =>
    simp only [List.length_cons] at hj hlen
    cases j with
    | zero =>
      rw [storeFrom, memRead_storeFrom_of_ne (wf_memWrite h ..), memRead_memWrite h]
      · simp
      · intro j hj' e
        have := addrAt_inj e (by omega) (by omega)
        omega
    | succ j =>
      rw [storeFrom, show k + (j + 1) = k + 1 + j by omega, ih (wf_memWrite h ..) _ (by omega) (by omega),
        memRead_memWrite h]
      have hne : addrAt b (k + 1 + j) ≠ addrAt b k := fun e => by
        have := addrAt_inj e (by omega) (by omega)
        omega
      simp [hne]

/-! ### Launch -/

theorem wf_placeFont {k : Nat} {bs : List Byte} {m : Memory} (h : Memory.wf m = true) (hk : k + bs.length ≤ 0x1000) :
    Memory.wf (placeFont k bs m) = true := by
  induction bs generalizing k m with
  | nil => exact h
  | cons b bs ih =>
    simp only [List.length_cons] at hk
    exact ih (wf_write h (by omega) b) (by omega)

theorem wf_placeMemInit {cells : List (Addr × Byte)} {m : Memory} (h : Memory.wf m = true) :
    Memory.wf (placeMemInit cells m) = true := by
  unfold placeMemInit
  induction cells generalizing m with
  | nil => exact h
  | cons c cells ih =>
    rw [List.foldl_cons]
    split
    · exact ih h
    · exact ih (wf_write h (toNat_lt_4096 c.1) c.2)

/-- The memory of every launch is in canonical form. -/
theorem wf_resetWith (p : LaunchParams) : Memory.wf (State.resetWith p).mem = true :=
  wf_placeMemInit (wf_placeFont rfl (by simp))

/-- The memory after reset is in canonical form. -/
theorem wf_reset : Memory.wf State.reset.mem = true := rfl

end Sys2Proof.Machine
end

