-- ==== Sys2Proof/Laws/Ops.lean ====
section
/-! SUPPORT. What each end of a cycle, each exception and each sequence at `I` can do: one lemma per shared operation. -/

namespace Sys2Proof.Machine

/-! ### Ends of a cycle -/

theorem transfer_eq (target : Word) (s : State) : transfer target s = .next ((s.setPc target).setStatus .ok) := rfl

theorem fallThrough_eq (s : State) : fallThrough s = .next ((s.setPc (advancePc s.pc 2)).setStatus .ok) := rfl

theorem skipIf_eq (c : Bool) (s : State) :
    skipIf c s = .next ((s.setPc (advancePc s.pc (if c then 4 else 2))).setStatus .ok) := rfl

theorem holdForKey_eq (s : State) : holdForKey s = .next (s.setStatus .keyWait) := rfl

theorem raiseFatal_eq (t : Status) (s : State) : raiseFatal t s = .next ({ s with halted := true }.setStatus t) := rfl

theorem reportUnrecognized_eq (w : Word) (s : State) :
    reportUnrecognized w s = .next ((s.setPc (advancePc s.pc 2)).setStatus (.unrecognized w)) := rfl

/-! ### Sequences at `I` -/

@[simp] theorem bcdDigits_length (b : Byte) : (bcdDigits b).length = 3 := rfl

@[simp] theorem regsUpTo_length (s : State) (x : Reg) : (s.regsUpTo x).length = x.val + 1 := by simp [State.regsUpTo]

@[simp] theorem bytesAt_length (s : State) (b : Word) (n : Nat) : (s.bytesAt b n).length = n := by simp [State.bytesAt]

theorem getElem_bytesAt (s : State) (b : Word) (n j : Nat) (h : j < (s.bytesAt b n).length) :
    (s.bytesAt b n)[j] = s.memRead (addrAt b j) := by simp [State.bytesAt]

theorem getElem_regsUpTo (s : State) (x y : Reg) (h : y.val < (s.regsUpTo x).length) :
    (s.regsUpTo x)[y.val] = s.reg y := by
  simp [State.regsUpTo]

/-- No font address among the `n` bytes at `b`. -/
theorem firstFontAddr_eq_none (b : Word) (n : Nat) :
    firstFontAddr b n = none ↔ ∀ k, k < n → isFontAddr (addrAt b k) = false := by
  simp [firstFontAddr, List.find?_eq_none]

theorem firstFontAddr_eq_some {b : Word} {n : Nat} {a : Addr} (h : firstFontAddr b n = some a) :
    isFontAddr a = true ∧ ∃ k, k < n ∧ a = addrAt b k := by
  have h1 := List.find?_some h
  have h2 := List.mem_of_find?_eq_some h
  simp only [List.mem_map, List.mem_range] at h2
  obtain ⟨k, hk, rfl⟩ := h2
  exact ⟨h1, k, hk, rfl⟩

/-- A sequence of at most 16 bytes that meets the font region meets it first at its lowest address there (R307). -/
theorem firstFontAddr_lowest {b : Word} {n : Nat} {a : Addr} (hn : n ≤ 16) (h : firstFontAddr b n = some a) {k : Nat}
    (hk : k < n) : a.toNat ≤ (addrAt b k).toNat := by
  have hf := (firstFontAddr_eq_some h).1
  simp only [isFontAddr, decide_eq_true_eq] at hf
  by_cases hfk : (addrAt b k).toNat < 0x050
  · obtain ⟨j, hj, rfl, hfirst⟩ : ∃ j, j < n ∧ a = addrAt b j ∧ ∀ i, i < j → isFontAddr (addrAt b i) = false := by
      simp only [firstFontAddr, List.find?_map, Option.map_eq_some_iff] at h
      obtain ⟨j, h, rfl⟩ := h
      rw [List.find?_range_eq_some] at h
      refine ⟨j, by simpa using h.2.1, rfl, fun i hi => ?_⟩
      simpa using h.2.2 i hi
    have hjk : j ≤ k := by
      by_contra hlt
      have := hfirst k (by omega)
      simp only [isFontAddr, decide_eq_false_iff_not] at this
      exact this hfk
    rcases Nat.eq_zero_or_pos j with rfl | hj0
    · rw [toNat_addrAt] at *
      rw [toNat_addrAt]
      omega
    · have := hfirst (j - 1) (by omega)
      simp only [isFontAddr, decide_eq_false_iff_not] at this
      simp only [toNat_addrAt] at *
      omega
  · omega

/-- What a write of bytes at `I` can do: fatal as a whole, or all the bytes and a fall-through. -/
theorem storeSequence_cases (w : Word) (bytes : List Byte) (finish : State → State) (s : State) :
    (∃ a, fontViolation s bytes.length = some a ∧
      storeSequence w bytes finish s = raiseFatal (.fontRegionWrite s.pc w a) s) ∨
    (fontViolation s bytes.length = none ∧
      storeSequence w bytes finish s = fallThrough (finish (storeFrom s.i 0 bytes s))) := by
  unfold storeSequence
  split
  · exact .inl ⟨_, ‹_›, rfl⟩
  · exact .inr ⟨‹_›, rfl⟩

/-- Where a sequence is not fatal, every byte of it lands unless the policy is `drop` and the byte is in the font. -/
theorem writeLands_of_no_violation {s : State} {n k : Nat} (h : fontViolation s n = none) (hk : k < n) :
    writeLands s.policy.fontWrite (addrAt s.i k) = true ∨
      (s.policy.fontWrite = .drop ∧ isFontAddr (addrAt s.i k) = true) := by
  unfold fontViolation at h
  cases hp : s.policy.fontWrite with
  | fault =>
    rw [hp, if_pos rfl, firstFontAddr_eq_none] at h
    simp [writeLands, h k hk]
  | drop => cases hf : isFontAddr (addrAt s.i k) <;> simp [writeLands, hf]
  | write => simp [writeLands]

/-! ### Keys -/

/-- The least pressed key: pressed, and no lower one is (R234). -/
theorem leastPressed_eq_some {s : State} {k : Key} (h : s.leastPressed = some k) :
    s.pressed k = true ∧ ∀ j : Key, j < k → s.pressed j = false := by
  simp only [State.leastPressed, List.find?_eq_some_iff_getElem] at h
  obtain ⟨hp, i, hi, hk, hlt⟩ := h
  refine ⟨hp, fun j hj => ?_⟩
  have hik : i = k.val := by
    have := congrArg Fin.val hk
    simpa using this
  have hjk : j.val < k.val := hj
  have := hlt j.val (by omega)
  simpa using this

theorem leastPressed_eq_none {s : State} : s.leastPressed = none ↔ ∀ k : Key, s.pressed k = false := by
  simp [State.leastPressed, List.find?_eq_none]

end Sys2Proof.Machine
end

