-- ==== Sys2Proof/Laws/Control.lean ====
section
/-! SUPPORT. The two cases of RET and of CALL as equations, without the bound proofs inside the meanings. -/

namespace Sys2Proof.Machine

theorem execRet_empty {s : State} (h : s.sp.val = 0) :
    execRet s = raiseFatal (.stackUnderflow s.pc (encode .ret)) s := dif_pos h

/-- RET with entry `k` on top. -/
theorem execRet_entry {s : State} (k : Fin 16) (h : s.sp.val = k.val + 1) :
    execRet s = transfer s.stack[k] { s with sp := ⟨k.val, by omega⟩ } := by
  have h0 : s.sp.val ≠ 0 := by omega
  simp [execRet, h]

theorem execCall_full {nnn : Addr} {s : State} (h : s.sp.val = 16) :
    execCall nnn s = raiseFatal (.stackOverflow s.pc (encode (.call nnn))) s := dif_pos h

/-- CALL with `k` entries held. -/
theorem execCall_room {nnn : Addr} {s : State} (k : Fin 16) (h : s.sp.val = k.val) :
    execCall nnn s = transfer (zext16 nnn)
      { s with stack := s.stack.set k (advancePc s.pc 2), sp := ⟨k.val + 1, by omega⟩ } := by
  have h0 : k.val ≠ 16 := by omega
  simp [execCall, h, h0]

end Sys2Proof.Machine
end

