-- ==== Sys2Proof/Laws/Encoding.lean ====
section
/-! SUPPORT. The fields of a word as numbers, what each field reads from a word of each format, and a word from its fields
(spec/30_encoding.md R71, R72). -/

namespace Sys2Proof

/-! ### Register indices -/

@[simp] theorem nibbleBits_toFin (x : Fin 16) : (nibbleBits x).toFin = x := rfl

@[simp] theorem nibbleBits_of_toFin (b : BitVec 4) : nibbleBits b.toFin = b := rfl

@[simp] theorem toNat_nibbleBits (x : Fin 16) : (nibbleBits x).toNat = x.val := rfl

/-! ### Fields as numbers -/

theorem toNat_fieldOp (w : Word) : (fieldOp w).toNat = w.toNat / 4096 := by
  have := w.isLt
  simp only [fieldOp, BitVec.extractLsb'_toNat, Nat.shiftRight_eq_div_pow]
  omega

theorem val_fieldX (w : Word) : (fieldX w).val = w.toNat / 256 % 16 := by
  show (w.extractLsb' 8 4).toNat = _
  simp only [BitVec.extractLsb'_toNat, Nat.shiftRight_eq_div_pow]

theorem val_fieldY (w : Word) : (fieldY w).val = w.toNat / 16 % 16 := by
  show (w.extractLsb' 4 4).toNat = _
  simp only [BitVec.extractLsb'_toNat, Nat.shiftRight_eq_div_pow]

theorem toNat_fieldN (w : Word) : (fieldN w).toNat = w.toNat % 16 := by
  simp only [fieldN, BitVec.extractLsb'_toNat, Nat.shiftRight_eq_div_pow]
  omega

theorem toNat_fieldNN (w : Word) : (fieldNN w).toNat = w.toNat % 256 := by
  simp only [fieldNN, BitVec.extractLsb'_toNat, Nat.shiftRight_eq_div_pow]
  omega

theorem toNat_fieldNNN (w : Word) : (fieldNNN w).toNat = w.toNat % 4096 := by
  simp only [fieldNNN, BitVec.extractLsb'_toNat, Nat.shiftRight_eq_div_pow]
  omega

/-! ### Formats as numbers -/

theorem toNat_encodeNNN (op : BitVec 4) (nnn : Addr) : (encodeNNN op nnn).toNat = op.toNat * 4096 + nnn.toNat := by
  show (op ++ nnn).toNat = _
  rw [BitVec.toNat_append, ← Nat.shiftLeft_add_eq_or_of_lt nnn.isLt, Nat.shiftLeft_eq]

theorem toNat_encodeXNN (op : BitVec 4) (x : Reg) (nn : Byte) :
    (encodeXNN op x nn).toNat = op.toNat * 4096 + x.val * 256 + nn.toNat := by
  show (op ++ nibbleBits x ++ nn).toNat = _
  rw [BitVec.toNat_append, ← Nat.shiftLeft_add_eq_or_of_lt nn.isLt, BitVec.toNat_append,
    ← Nat.shiftLeft_add_eq_or_of_lt (nibbleBits x).isLt]
  simp only [Nat.shiftLeft_eq, toNat_nibbleBits]
  omega

theorem toNat_encodeXYN (op : BitVec 4) (x y : Reg) (n : BitVec 4) :
    (encodeXYN op x y n).toNat = op.toNat * 4096 + x.val * 256 + y.val * 16 + n.toNat := by
  show (op ++ nibbleBits x ++ nibbleBits y ++ n).toNat = _
  rw [BitVec.toNat_append, ← Nat.shiftLeft_add_eq_or_of_lt n.isLt, BitVec.toNat_append,
    ← Nat.shiftLeft_add_eq_or_of_lt (nibbleBits y).isLt, BitVec.toNat_append,
    ← Nat.shiftLeft_add_eq_or_of_lt (nibbleBits x).isLt]
  simp only [Nat.shiftLeft_eq, toNat_nibbleBits]
  omega

/-! ### Fields of a word of a format -/

@[simp] theorem fieldOp_encodeNNN (op : BitVec 4) (nnn : Addr) : fieldOp (encodeNNN op nnn) = op := by
  apply BitVec.eq_of_toNat_eq
  rw [toNat_fieldOp, toNat_encodeNNN]
  omega

@[simp] theorem fieldNNN_encodeNNN (op : BitVec 4) (nnn : Addr) : fieldNNN (encodeNNN op nnn) = nnn := by
  apply BitVec.eq_of_toNat_eq
  rw [toNat_fieldNNN, toNat_encodeNNN]
  omega

@[simp] theorem fieldOp_encodeXNN (op : BitVec 4) (x : Reg) (nn : Byte) : fieldOp (encodeXNN op x nn) = op := by
  apply BitVec.eq_of_toNat_eq
  rw [toNat_fieldOp, toNat_encodeXNN]
  omega

@[simp] theorem fieldX_encodeXNN (op : BitVec 4) (x : Reg) (nn : Byte) : fieldX (encodeXNN op x nn) = x := by
  apply Fin.ext
  rw [val_fieldX, toNat_encodeXNN]
  omega

@[simp] theorem fieldNN_encodeXNN (op : BitVec 4) (x : Reg) (nn : Byte) : fieldNN (encodeXNN op x nn) = nn := by
  apply BitVec.eq_of_toNat_eq
  rw [toNat_fieldNN, toNat_encodeXNN]
  omega

@[simp] theorem fieldOp_encodeXYN (op : BitVec 4) (x y : Reg) (n : BitVec 4) : fieldOp (encodeXYN op x y n) = op := by
  apply BitVec.eq_of_toNat_eq
  rw [toNat_fieldOp, toNat_encodeXYN]
  omega

@[simp] theorem fieldX_encodeXYN (op : BitVec 4) (x y : Reg) (n : BitVec 4) : fieldX (encodeXYN op x y n) = x := by
  apply Fin.ext
  rw [val_fieldX, toNat_encodeXYN]
  omega

@[simp] theorem fieldY_encodeXYN (op : BitVec 4) (x y : Reg) (n : BitVec 4) : fieldY (encodeXYN op x y n) = y := by
  apply Fin.ext
  rw [val_fieldY, toNat_encodeXYN]
  omega

@[simp] theorem fieldN_encodeXYN (op : BitVec 4) (x y : Reg) (n : BitVec 4) : fieldN (encodeXYN op x y n) = n := by
  apply BitVec.eq_of_toNat_eq
  rw [toNat_fieldN, toNat_encodeXYN]
  omega

/-! ### A word from its fields -/

theorem encodeNNN_fields (w : Word) : encodeNNN (fieldOp w) (fieldNNN w) = w := by
  apply BitVec.eq_of_toNat_eq
  rw [toNat_encodeNNN, toNat_fieldOp, toNat_fieldNNN]
  omega

theorem encodeXNN_fields (w : Word) : encodeXNN (fieldOp w) (fieldX w) (fieldNN w) = w := by
  apply BitVec.eq_of_toNat_eq
  rw [toNat_encodeXNN, toNat_fieldOp, val_fieldX, toNat_fieldNN]
  omega

theorem encodeXYN_fields (w : Word) : encodeXYN (fieldOp w) (fieldX w) (fieldY w) (fieldN w) = w := by
  apply BitVec.eq_of_toNat_eq
  rw [toNat_encodeXYN, toNat_fieldOp, val_fieldX, val_fieldY, toNat_fieldN]
  omega

/-! ### A word under the masks of the opcode map (R76) -/

theorem encodeNNN_and_F000 (op : BitVec 4) (nnn : Addr) : encodeNNN op nnn &&& 0xF000#16 = encodeNNN op 0#12 := by
  show (op ++ nnn) &&& (0xF#4 ++ 0x000#12) = op ++ 0#12
  rw [BitVec.and_append]
  congr 1
  · exact BitVec.and_allOnes
  · exact BitVec.and_zero

theorem encodeXNN_and_F000 (op : BitVec 4) (x : Reg) (nn : Byte) :
    encodeXNN op x nn &&& 0xF000#16 = encodeXNN op 0 0#8 := by
  show (op ++ nibbleBits x ++ nn) &&& (0xF#4 ++ 0x0#4 ++ 0x00#8) = op ++ 0#4 ++ 0#8
  rw [BitVec.and_append, BitVec.and_append]
  simp only [BitVec.and_zero]
  congr 2
  exact BitVec.and_allOnes

theorem encodeXNN_and_F0FF (op : BitVec 4) (x : Reg) (nn : Byte) :
    encodeXNN op x nn &&& 0xF0FF#16 = encodeXNN op 0 nn := by
  show (op ++ nibbleBits x ++ nn) &&& (0xF#4 ++ 0x0#4 ++ 0xFF#8) = op ++ 0#4 ++ nn
  rw [BitVec.and_append, BitVec.and_append]
  simp only [BitVec.and_zero]
  congr 1
  · congr 1; exact BitVec.and_allOnes
  · exact BitVec.and_allOnes

theorem encodeXYN_and_F000 (op : BitVec 4) (x y : Reg) (n : BitVec 4) :
    encodeXYN op x y n &&& 0xF000#16 = encodeXYN op 0 0 0#4 := by
  show (op ++ nibbleBits x ++ nibbleBits y ++ n) &&& (0xF#4 ++ 0x0#4 ++ 0x0#4 ++ 0x0#4) = op ++ 0#4 ++ 0#4 ++ 0#4
  rw [BitVec.and_append, BitVec.and_append, BitVec.and_append]
  simp only [BitVec.and_zero]
  congr 3
  exact BitVec.and_allOnes

theorem encodeXYN_and_F00F (op : BitVec 4) (x y : Reg) (n : BitVec 4) :
    encodeXYN op x y n &&& 0xF00F#16 = encodeXYN op 0 0 n := by
  show (op ++ nibbleBits x ++ nibbleBits y ++ n) &&& (0xF#4 ++ 0x0#4 ++ 0x0#4 ++ 0xF#4) = op ++ 0#4 ++ 0#4 ++ n
  rw [BitVec.and_append, BitVec.and_append, BitVec.and_append]
  simp only [BitVec.and_zero]
  congr 1
  · congr 2; exact BitVec.and_allOnes
  · exact BitVec.and_allOnes

/-! ### Bytes of a word (R55) -/

@[simp] theorem wordOfBytes_bytes (w : Word) : wordOfBytes (highByte w) (lowByte w) = w := by
  apply BitVec.eq_of_toNat_eq
  show (highByte w ++ lowByte w).toNat = _
  rw [BitVec.toNat_append, ← Nat.shiftLeft_add_eq_or_of_lt (lowByte w).isLt, Nat.shiftLeft_eq]
  simp only [highByte, lowByte, BitVec.extractLsb'_toNat, Nat.shiftRight_eq_div_pow]
  have := w.isLt
  omega

theorem toNat_wordOfBytes (hi lo : Byte) : (wordOfBytes hi lo).toNat = hi.toNat * 256 + lo.toNat := by
  show (hi ++ lo).toNat = _
  rw [BitVec.toNat_append, ← Nat.shiftLeft_add_eq_or_of_lt lo.isLt, Nat.shiftLeft_eq]

end Sys2Proof
end

