-- ==== Sys2Proof/Laws/PerInstr.lean ====
section
/-! SUPPORT. Statements about every instruction as syntax, one lemma per constructor. Family RowMatch: the word of a
well-formed instruction matches the row of the opcode map (spec/30_encoding.md R76) that bears its mnemonic. -/

namespace Sys2Proof.Laws.RowMatch

/-- Some row of the opcode map bears the instruction's mnemonic and matches its word. -/
def Statement (i : Instr) : Prop :=
  i.wellFormed = true → ∃ r ∈ opcodeMap, r.mnemonic = mnemonicOf i ∧ r.matchesWord (encode i) = true

/-- A row found by its place in the map. -/
theorem of_row {i : Instr} (k : Fin opcodeMap.length) (hm : opcodeMap[k].mnemonic = mnemonicOf i)
    (hw : opcodeMap[k].matchesWord (encode i) = true) :
    ∃ r ∈ opcodeMap, r.mnemonic = mnemonicOf i ∧ r.matchesWord (encode i) = true :=
  ⟨opcodeMap[k], List.getElem_mem _, hm, hw⟩

/-- A row without exceptions matches a word by its mask alone. -/
theorem matches_of {r : OpcodeRow} {w : Word} (h : w &&& r.mask = r.pattern) (he : r.except = []) :
    r.matchesWord w = true := by simp [OpcodeRow.matchesWord, h, he]

theorem cls : Statement (.cls) := fun _ => of_row ⟨0, by decide⟩ rfl (by decide)

theorem ret : Statement (.ret) := fun _ => of_row ⟨1, by decide⟩ rfl (by decide)

theorem sys (nnn : Addr) : Statement (.sys nnn) := fun h => of_row ⟨2, by decide⟩ rfl (by
  simp only [Instr.wellFormed, Bool.and_eq_true, decide_eq_true_eq] at h
  have hne : ∀ c : Addr, nnn ≠ c → encodeNNN 0#4 nnn ≠ encodeNNN 0#4 c := fun c hc e => hc (by
    simpa using congrArg fieldNNN e)
  have h0 : encode (.sys nnn) ≠ 0x00E0#16 := hne 0x0E0#12 h.1
  have h1 : encode (.sys nnn) ≠ 0x00EE#16 := hne 0x0EE#12 h.2
  show (decide (encode (.sys nnn) &&& 0xF000#16 = 0x0000#16) && !List.contains [0x00E0#16, 0x00EE#16] (encode (.sys nnn))) = true
  have hm : encode (.sys nnn) &&& 0xF000#16 = 0x0000#16 := (encodeNNN_and_F000 0#4 nnn).trans (by decide)
  simp [hm, h0, h1])

theorem jp (nnn : Addr) : Statement (.jp nnn) :=
  fun _ => of_row ⟨3, by decide⟩ rfl (matches_of ((encodeNNN_and_F000 _ nnn).trans (by decide)) rfl)

theorem call (nnn : Addr) : Statement (.call nnn) :=
  fun _ => of_row ⟨4, by decide⟩ rfl (matches_of ((encodeNNN_and_F000 _ nnn).trans (by decide)) rfl)

theorem seImm (x : Reg) (nn : Byte) : Statement (.seImm x nn) :=
  fun _ => of_row ⟨5, by decide⟩ rfl (matches_of ((encodeXNN_and_F000 _ x nn).trans (by decide)) rfl)

theorem sneImm (x : Reg) (nn : Byte) : Statement (.sneImm x nn) :=
  fun _ => of_row ⟨6, by decide⟩ rfl (matches_of ((encodeXNN_and_F000 _ x nn).trans (by decide)) rfl)

theorem seReg (x : Reg) (y : Reg) : Statement (.seReg x y) :=
  fun _ => of_row ⟨7, by decide⟩ rfl (matches_of ((encodeXYN_and_F00F _ x y _).trans (by decide)) rfl)

theorem ldImm (x : Reg) (nn : Byte) : Statement (.ldImm x nn) :=
  fun _ => of_row ⟨8, by decide⟩ rfl (matches_of ((encodeXNN_and_F000 _ x nn).trans (by decide)) rfl)

theorem addImm (x : Reg) (nn : Byte) : Statement (.addImm x nn) :=
  fun _ => of_row ⟨9, by decide⟩ rfl (matches_of ((encodeXNN_and_F000 _ x nn).trans (by decide)) rfl)

theorem ldReg (x : Reg) (y : Reg) : Statement (.ldReg x y) :=
  fun _ => of_row ⟨10, by decide⟩ rfl (matches_of ((encodeXYN_and_F00F _ x y _).trans (by decide)) rfl)

theorem orReg (x : Reg) (y : Reg) : Statement (.orReg x y) :=
  fun _ => of_row ⟨11, by decide⟩ rfl (matches_of ((encodeXYN_and_F00F _ x y _).trans (by decide)) rfl)

theorem andReg (x : Reg) (y : Reg) : Statement (.andReg x y) :=
  fun _ => of_row ⟨12, by decide⟩ rfl (matches_of ((encodeXYN_and_F00F _ x y _).trans (by decide)) rfl)

theorem xorReg (x : Reg) (y : Reg) : Statement (.xorReg x y) :=
  fun _ => of_row ⟨13, by decide⟩ rfl (matches_of ((encodeXYN_and_F00F _ x y _).trans (by decide)) rfl)

theorem addReg (x : Reg) (y : Reg) : Statement (.addReg x y) :=
  fun _ => of_row ⟨14, by decide⟩ rfl (matches_of ((encodeXYN_and_F00F _ x y _).trans (by decide)) rfl)

theorem sub (x : Reg) (y : Reg) : Statement (.sub x y) :=
  fun _ => of_row ⟨15, by decide⟩ rfl (matches_of ((encodeXYN_and_F00F _ x y _).trans (by decide)) rfl)

theorem shr (x : Reg) (y : Reg) : Statement (.shr x y) :=
  fun _ => of_row ⟨16, by decide⟩ rfl (matches_of ((encodeXYN_and_F00F _ x y _).trans (by decide)) rfl)

theorem subn (x : Reg) (y : Reg) : Statement (.subn x y) :=
  fun _ => of_row ⟨17, by decide⟩ rfl (matches_of ((encodeXYN_and_F00F _ x y _).trans (by decide)) rfl)

theorem shl (x : Reg) (y : Reg) : Statement (.shl x y) :=
  fun _ => of_row ⟨18, by decide⟩ rfl (matches_of ((encodeXYN_and_F00F _ x y _).trans (by decide)) rfl)

theorem sneReg (x : Reg) (y : Reg) : Statement (.sneReg x y) :=
  fun _ => of_row ⟨19, by decide⟩ rfl (matches_of ((encodeXYN_and_F00F _ x y _).trans (by decide)) rfl)

theorem ldI (nnn : Addr) : Statement (.ldI nnn) :=
  fun _ => of_row ⟨20, by decide⟩ rfl (matches_of ((encodeNNN_and_F000 _ nnn).trans (by decide)) rfl)

theorem jpV0 (nnn : Addr) : Statement (.jpV0 nnn) :=
  fun _ => of_row ⟨21, by decide⟩ rfl (matches_of ((encodeNNN_and_F000 _ nnn).trans (by decide)) rfl)

theorem rnd (x : Reg) (nn : Byte) : Statement (.rnd x nn) :=
  fun _ => of_row ⟨22, by decide⟩ rfl (matches_of ((encodeXNN_and_F000 _ x nn).trans (by decide)) rfl)

theorem drw (x : Reg) (y : Reg) (n : RowCount) : Statement (.drw x y n) :=
  fun _ => of_row ⟨23, by decide⟩ rfl (matches_of ((encodeXYN_and_F000 _ x y _).trans (by decide)) rfl)

theorem skp (x : Reg) : Statement (.skp x) :=
  fun _ => of_row ⟨24, by decide⟩ rfl (matches_of ((encodeXNN_and_F0FF _ x _).trans (by decide)) rfl)

theorem sknp (x : Reg) : Statement (.sknp x) :=
  fun _ => of_row ⟨25, by decide⟩ rfl (matches_of ((encodeXNN_and_F0FF _ x _).trans (by decide)) rfl)

theorem ldXDt (x : Reg) : Statement (.ldXDt x) :=
  fun _ => of_row ⟨26, by decide⟩ rfl (matches_of ((encodeXNN_and_F0FF _ x _).trans (by decide)) rfl)

theorem ldXK (x : Reg) : Statement (.ldXK x) :=
  fun _ => of_row ⟨27, by decide⟩ rfl (matches_of ((encodeXNN_and_F0FF _ x _).trans (by decide)) rfl)

theorem ldDtX (x : Reg) : Statement (.ldDtX x) :=
  fun _ => of_row ⟨28, by decide⟩ rfl (matches_of ((encodeXNN_and_F0FF _ x _).trans (by decide)) rfl)

theorem ldStX (x : Reg) : Statement (.ldStX x) :=
  fun _ => of_row ⟨29, by decide⟩ rfl (matches_of ((encodeXNN_and_F0FF _ x _).trans (by decide)) rfl)

theorem addIX (x : Reg) : Statement (.addIX x) :=
  fun _ => of_row ⟨30, by decide⟩ rfl (matches_of ((encodeXNN_and_F0FF _ x _).trans (by decide)) rfl)

theorem ldFX (x : Reg) : Statement (.ldFX x) :=
  fun _ => of_row ⟨31, by decide⟩ rfl (matches_of ((encodeXNN_and_F0FF _ x _).trans (by decide)) rfl)

theorem ldBX (x : Reg) : Statement (.ldBX x) :=
  fun _ => of_row ⟨32, by decide⟩ rfl (matches_of ((encodeXNN_and_F0FF _ x _).trans (by decide)) rfl)

theorem ldMemX (x : Reg) : Statement (.ldMemX x) :=
  fun _ => of_row ⟨33, by decide⟩ rfl (matches_of ((encodeXNN_and_F0FF _ x _).trans (by decide)) rfl)

theorem ldXMem (x : Reg) : Statement (.ldXMem x) :=
  fun _ => of_row ⟨34, by decide⟩ rfl (matches_of ((encodeXNN_and_F0FF _ x _).trans (by decide)) rfl)

end Sys2Proof.Laws.RowMatch
end

