-- ==== Sys2Proof/Laws/Runs.lean ====
section
/-! SUPPORT. What one transaction and a sequence of transactions of a good run can do (spec/70_reset_and_hazards.md R368). -/

namespace Sys2Proof.Machine

/-- A transaction of a good run has a move, and a Step among them returned a good status. -/
theorem goodTransact_eq_some {a : Transaction} {s t : State} :
    goodTransact a s = some t ↔ transact a s = .next t ∧ (a = .step → t.statusGood = true) := by
  unfold goodTransact
  cases h : transact a s with
  | next u =>
    by_cases ha : a = .step <;> cases hu : u.statusGood <;> simp [ha, hu] <;> rintro rfl <;> simp [hu]
  | fault f => simp
  | refused r => simp

@[simp] theorem runGood_nil (s : State) : runGood s [] = some s := rfl

@[simp] theorem runGood_cons (s : State) (a : Transaction) (as : List Transaction) :
    runGood s (a :: as) = (goodTransact a s).bind fun t => runGood t as := rfl

/-- A sequence in two parts. -/
theorem runGood_append (s : State) (as bs : List Transaction) :
    runGood s (as ++ bs) = (runGood s as).bind fun t => runGood t bs := by
  induction as generalizing s with
  | nil => rfl
  | cons a as ih => cases h : goodTransact a s <;> simp [h, ih]

/-- A good status, in the form `GoodRun` asks for. -/
theorem statusGood_eq_true {s : State} : s.statusGood = true ↔ ∃ u, s.status = some u ∧ u.good = true := by
  cases h : s.status <;> simp [State.statusGood, h]

/-- A transaction of a good run leads from a state of a good run to another. -/
theorem GoodRun.transact {a : Transaction} {s t : State} (hs : GoodRun s) (h : goodTransact a s = some t) : GoodRun t := by
  obtain ⟨ht, hg⟩ := goodTransact_eq_some.1 h
  by_cases ha : a = .step
  · obtain ⟨u, hu, hgu⟩ := statusGood_eq_true.1 (hg ha)
    exact .step u hs (ha ▸ ht) hu hgu
  · exact .host a hs ha ht

/-- So does a sequence of them. -/
theorem GoodRun.runGood {as : List Transaction} {s t : State} (hs : GoodRun s) (h : runGood s as = some t) : GoodRun t := by
  induction as generalizing s with
  | nil => exact (Option.some.inj h) ▸ hs
  | cons a as ih =>
    simp only [runGood_cons, Option.bind_eq_some_iff] at h
    obtain ⟨u, hu, h⟩ := h
    exact ih (hs.transact hu) h

end Sys2Proof.Machine
end

