-- ==== Sys2Proof/Laws/Step.lean ====
section
/-! SUPPORT. What a step can do (spec/30_encoding.md R80), and that `withFetchWord` places what the next step runs. -/

namespace Sys2Proof.Machine

/-- A step halts, executes what the word at `pc` decodes to, or reports an unrecognized word. -/
theorem step_cases (s : State) :
    (s.halted = true ∧ step s = .next (s.setStatus .halted)) ∨
    (s.halted = false ∧ ∃ i, decode (s.fetch s.pc) = .instr i ∧ step s = exec i s) ∨
    (s.halted = false ∧ ∃ w, decode (s.fetch s.pc) = .unrecognized w ∧ step s = reportUnrecognized w s) := by
  unfold step
  cases hh : s.halted
  · right
    cases hd : decode (s.fetch s.pc) with
    | instr i => exact .inl ⟨rfl, i, rfl, rfl⟩
    | unrecognized w => exact .inr ⟨rfl, w, rfl, rfl⟩
  · exact .inl ⟨rfl, rfl⟩

/-- The two bytes placed by `withFetchWord` are the word the next step fetches. -/
theorem fetch_withFetchWord {s : State} (h : Memory.wf s.mem = true) (nbits w : Nat) :
    (s.withFetchWord nbits w).fetch (s.withFetchWord nbits w).pc = tableWord nbits w := by
  have hne : addrAt s.pc 0 ≠ addrAt s.pc 1 := fun e => by
    have := addrAt_inj e (by omega) (by omega)
    omega
  have hm : ∀ a, (s.withFetchWord nbits w).memRead a =
      ((s.poke (addrAt s.pc 0) (highByte (tableWord nbits w))).poke (addrAt s.pc 1)
        (lowByte (tableWord nbits w))).memRead a := fun a => rfl
  have hp : (s.withFetchWord nbits w).pc = s.pc := rfl
  simp [State.fetch, hm, hp, memRead_poke (wf_poke h ..), memRead_poke h, hne]

/-- After `withFetchWord` the next step runs the instruction `decodeTableWord` answers. -/
theorem step_withFetchWord {s : State} (h : Memory.wf s.mem = true) {nbits w : Nat} {i : Instr}
    (hd : decodeTableWord nbits w = some i) :
    step (s.withFetchWord nbits w) = exec i (s.withFetchWord nbits w) := by
  have hi : decode (tableWord nbits w) = .instr i := by
    unfold decodeTableWord decodeBytes at hd
    rw [wordOfBytes_bytes] at hd
    split at hd
    · simp_all
    · simp at hd
  rcases step_cases (s.withFetchWord nbits w) with ⟨hh, -⟩ | ⟨-, j, hj, hs⟩ | ⟨-, u, hu, -⟩
  · simp [State.withFetchWord] at hh
  · rw [fetch_withFetchWord h, hi] at hj
    obtain rfl := Decoded.instr.inj hj
    exact hs
  · rw [fetch_withFetchWord h, hi] at hu
    cases hu

end Sys2Proof.Machine
end

