-- ==== Sys2Proof/Tests/Slice0.lean ====
section
/-! SUPPORT. Small tests of single steps, their expected results taken from spec/95_test_vectors.md (the vector is named at each)
or from the rules' examples; words written out from the encodings; and one witness for the hypotheses of each statement. -/

namespace Sys2Proof.Machine.Tests

/-- The state of an outcome that has one. -/
def after : Host.Outcome State Fault Refusal → State
  | .next s => s
  | .fault _ | .refused _ => State.reset

/-- One step of the word `w`, placed where `s` fetches. -/
def run (w : Nat) (s : State) : State := after (step (s.withFetchWord 16 w))

/-- Reset with a register set. -/
def V (x : Reg) (b : Byte) (s : State := State.reset) : State := s.setReg x b

/-- `n` entries on the stack, all equal. -/
def held (n : Fin 17) (e : Word) : State := { State.reset with sp := n, stack := Vector.replicate 16 e }

/-! ### WellFormed -/

theorem test_illformed_sys_0E0_refused : (Instr.sys 0x0E0#12).wellFormed = false := by decide
theorem test_illformed_sys_0EE_refused : (Instr.sys 0x0EE#12).wellFormed = false := by decide
theorem test_wellformed_sys_accepted : (Instr.sys 0x123#12).wellFormed = true := by decide

/-! ### Encodings: words written out from 30_encoding.md R72 and R76, bits 15-12, 11-8, 7-4, 3-0 -/

theorem test_words_system_display :
    decode 0b0000000011100000#16 = .instr .cls ∧ decode 0b0000000011101110#16 = .instr .ret ∧
    decode 0b0000000100100011#16 = .instr (.sys 0x123#12) ∧ decode 0b1101000100100101#16 = .instr (.drw 1 2 5) ∧
    encode .cls = 0x00E0#16 ∧ encode .ret = 0x00EE#16 ∧ encode (.sys 0x123#12) = 0x0123#16 ∧
    encode (.drw 1 2 5) = 0xD125#16 := by decide
theorem test_words_jumps :
    decode 0b0001000011100000#16 = .instr (.jp 0x0E0#12) ∧ decode 0b0010001100000000#16 = .instr (.call 0x300#12) ∧
    decode 0b1011111111111111#16 = .instr (.jpV0 0xFFF#12) ∧ encode (.jp 0x0E0#12) = 0x10E0#16 ∧
    encode (.call 0x300#12) = 0x2300#16 ∧ encode (.jpV0 0xFFF#12) = 0xBFFF#16 := by decide
theorem test_words_skips :
    decode 0b0011001101000010#16 = .instr (.seImm 3 0x42#8) ∧ decode 0b0100001101000010#16 = .instr (.sneImm 3 0x42#8) ∧
    decode 0b0101000100100000#16 = .instr (.seReg 1 2) ∧ decode 0b1001000100100000#16 = .instr (.sneReg 1 2) ∧
    encode (.seImm 3 0x42#8) = 0x3342#16 ∧ encode (.sneImm 3 0x42#8) = 0x4342#16 ∧ encode (.seReg 1 2) = 0x5120#16 ∧
    encode (.sneReg 1 2) = 0x9120#16 := by decide
theorem test_words_loads :
    decode 0b0110101001111011#16 = .instr (.ldImm 10 0x7B#8) ∧ decode 0b0111000000000101#16 = .instr (.addImm 0 5#8) ∧
    decode 0b1100001100001111#16 = .instr (.rnd 3 0x0F#8) ∧ encode (.ldImm 10 0x7B#8) = 0x6A7B#16 ∧
    encode (.addImm 0 5#8) = 0x7005#16 ∧ encode (.rnd 3 0x0F#8) = 0xC30F#16 := by decide
theorem test_words_alu_low :
    decode 0b1000000100100000#16 = .instr (.ldReg 1 2) ∧ decode 0b1000000100100001#16 = .instr (.orReg 1 2) ∧
    decode 0b1000000100100010#16 = .instr (.andReg 1 2) ∧ decode 0b1000000100100011#16 = .instr (.xorReg 1 2) ∧
    decode 0b1000000100100100#16 = .instr (.addReg 1 2) ∧ encode (.ldReg 1 2) = 0x8120#16 ∧
    encode (.orReg 1 2) = 0x8121#16 ∧ encode (.andReg 1 2) = 0x8122#16 ∧ encode (.xorReg 1 2) = 0x8123#16 ∧
    encode (.addReg 1 2) = 0x8124#16 := by decide
theorem test_words_alu_high :
    decode 0b1000000100100101#16 = .instr (.sub 1 2) ∧ decode 0b1000000100100110#16 = .instr (.shr 1 2) ∧
    decode 0b1000000100100111#16 = .instr (.subn 1 2) ∧ decode 0b1000000100101110#16 = .instr (.shl 1 2) ∧
    encode (.sub 1 2) = 0x8125#16 ∧ encode (.shr 1 2) = 0x8126#16 ∧ encode (.subn 1 2) = 0x8127#16 ∧
    encode (.shl 1 2) = 0x812E#16 := by decide
theorem test_words_index :
    decode 0b1010000100100011#16 = .instr (.ldI 0x123#12) ∧ decode 0b1111001000011110#16 = .instr (.addIX 2) ∧
    decode 0b1111010000101001#16 = .instr (.ldFX 4) ∧ decode 0b1111101000110011#16 = .instr (.ldBX 10) ∧
    decode 0b1111001001010101#16 = .instr (.ldMemX 2) ∧ decode 0b1111111101100101#16 = .instr (.ldXMem 15) ∧
    encode (.ldI 0x123#12) = 0xA123#16 ∧ encode (.addIX 2) = 0xF21E#16 ∧ encode (.ldFX 4) = 0xF429#16 ∧
    encode (.ldBX 10) = 0xFA33#16 ∧ encode (.ldMemX 2) = 0xF255#16 ∧ encode (.ldXMem 15) = 0xFF65#16 := by decide
theorem test_words_keys_timers :
    decode 0b1110000110011110#16 = .instr (.skp 1) ∧ decode 0b1110000110100001#16 = .instr (.sknp 1) ∧
    decode 0b1111000100000111#16 = .instr (.ldXDt 1) ∧ decode 0b1111001100001010#16 = .instr (.ldXK 3) ∧
    decode 0b1111001000010101#16 = .instr (.ldDtX 2) ∧ decode 0b1111001000011000#16 = .instr (.ldStX 2) ∧
    encode (.skp 1) = 0xE19E#16 ∧ encode (.sknp 1) = 0xE1A1#16 ∧ encode (.ldXDt 1) = 0xF107#16 ∧
    encode (.ldXK 3) = 0xF30A#16 ∧ encode (.ldDtX 2) = 0xF215#16 ∧ encode (.ldStX 2) = 0xF218#16 := by decide
/-- 95_test_vectors.md section 2.1. -/
theorem test_words_unrecognized :
    decode 0x5121#16 = .unrecognized 0x5121#16 ∧ decode 0x8008#16 = .unrecognized 0x8008#16 ∧
    decode 0x912F#16 = .unrecognized 0x912F#16 ∧ decode 0xE1A2#16 = .unrecognized 0xE1A2#16 ∧
    decode 0xF066#16 = .unrecognized 0xF066#16 ∧ decode 0x00E1#16 = .instr (.sys 0x0E1#12) := by decide
theorem test_decodeTableWord :
    decodeTableWord 16 0x6A7B = some (.ldImm 10 0x7B#8) ∧ decodeTableWord 16 0xFFFF = none := by decide

/-! ### Single steps -/

/-- V-D1, on a framebuffer with one lit pixel. -/
theorem test_cls : (run 0x00E0 { State.reset with fb := setPixel clearFramebuffer 31 63 1 }).pixel 31 63 = 0 := by decide
/-- V-B1. -/
theorem test_ret_underflow :
    (run 0x00EE State.reset).status = some (.stackUnderflow 0x200#16 0x00EE#16) ∧ (run 0x00EE State.reset).halted = true ∧
      (run 0x00EE State.reset).pc = 0x200#16 := by decide
/-- V-B2. -/
theorem test_ret : (run 0x00EE (held 2 0x40A#16)).pc = 0x40A#16 ∧ (run 0x00EE (held 2 0x40A#16)).sp = 1 := by decide
/-- V-E1 and V-E2. -/
theorem test_sys :
    (run 0x0123 State.reset).status = some (.unrecognized 0x0123#16) ∧ (run 0x0123 State.reset).pc = 0x202#16 ∧
      (run 0x0000 State.reset).status = some (.unrecognized 0x0000#16) := by decide
/-- V-B3. -/
theorem test_jp : (run 0x1FFF State.reset).pc = 0xFFF#16 := by decide
/-- V-B5. -/
theorem test_call_overflow :
    (run 0x2300 (held 16 0)).status = some (.stackOverflow 0x200#16 0x2300#16) ∧ (run 0x2300 (held 16 0)).sp = 16 := by decide
/-- V-B6 and V-B7. -/
theorem test_call :
    (run 0x2300 ((held 15 0).setPc 0x400#16)).stack[15] = 0x402#16 ∧ (run 0x2300 (held 15 0)).sp = 16 ∧
      (run 0x2300 (State.reset.setPc 0xFFE#16)).stack[0] = 0x000#16 := by decide
/-- V-B9. -/
theorem test_jpV0 : (run 0xBFFF (V 0 0xFF)).pc = 0x0FE#16 := by decide
/-- V-B13 and V-B12. -/
theorem test_seImm :
    (run 0x3000 (State.reset.setPc 0xFFE#16)).pc = 0x002#16 ∧ (run 0x3343 (V 3 0x42)).pc = 0x202#16 := by decide
/-- V-B14 and V-B15. -/
theorem test_sneImm : (run 0x4342 (V 3 0x42)).pc = 0x202#16 ∧ (run 0x4300 (V 3 0x42)).pc = 0x204#16 := by decide
/-- V-B17 and V-B16. -/
theorem test_seReg : (run 0x5120 (V 1 7 (V 2 8))).pc = 0x202#16 ∧ (run 0x5770 State.reset).pc = 0x204#16 := by decide
/-- V-B19 and V-B18. -/
theorem test_sneReg : (run 0x9120 (V 1 7 (V 2 8))).pc = 0x204#16 ∧ (run 0x9770 State.reset).pc = 0x202#16 := by decide
/-- V-A1. -/
theorem test_ldImm : (run 0x6A7B State.reset).reg 10 = 0x7B#8 := by decide
/-- V-A3. -/
theorem test_addImm_no_flag :
    (run 0x7001 (V 0 0xFF (V 15 0x55))).reg 0 = 0 ∧ (run 0x7001 (V 0 0xFF (V 15 0x55))).reg 15 = 0x55#8 := by decide
/-- V-A6: whatever the draw. -/
theorem test_rnd_mask_zero : (run 0xC300 State.reset).reg 3 = 0 := BitVec.and_zero
/-- V-A8. -/
theorem test_ldReg : (run 0x8010 (V 1 5 (V 15 0x55))).reg 0 = 5 ∧ (run 0x8010 (V 1 5 (V 15 0x55))).reg 15 = 0x55#8 := by decide
/-- V-A9, V-A10, V-A11. -/
theorem test_logic :
    (run 0x8231 (V 2 0x0C (V 3 0x0A))).reg 2 = 0x0E#8 ∧ (run 0x8232 (V 2 0x0C (V 3 0x0A))).reg 2 = 0x08#8 ∧
      (run 0x8233 (V 2 0x0C (V 3 0x0A))).reg 2 = 0x06#8 := by decide
/-- V-A17: the flag is written last. -/
theorem test_addReg_into_vf : (run 0x8F14 (V 15 0x10 (V 1 0xF0))).reg 15 = 1 := by decide
/-- V-A18: the addend is the old VF. -/
theorem test_addReg_from_vf : (run 0x80F4 (V 0 1 (V 15 2))).reg 0 = 3 ∧ (run 0x80F4 (V 0 1 (V 15 2))).reg 15 = 0 := by decide
/-- V-A20 (equal: no borrow) and V-A24. -/
theorem test_sub :
    (run 0x8015 (V 0 3 (V 1 3))).reg 15 = 1 ∧ (run 0x80F5 (V 0 1 (V 15 2))).reg 0 = 0xFF#8 ∧
      (run 0x80F5 (V 0 1 (V 15 2))).reg 15 = 0 := by decide
/-- V-A27 (Y ignored) and V-A28. -/
theorem test_shr :
    (run 0x8016 (V 0 4 (V 1 0xFF))).reg 0 = 2 ∧ (run 0x8016 (V 0 4 (V 1 0xFF))).reg 15 = 0 ∧
      (run 0x8F06 (V 15 3)).reg 15 = 1 := by decide
/-- V-A30 and V-A32. -/
theorem test_subn :
    (run 0x8017 (V 0 5 (V 1 3))).reg 0 = 0xFE#8 ∧ (run 0x8017 (V 0 5 (V 1 3))).reg 15 = 0 ∧
      (run 0x8F17 (V 15 1)).reg 15 = 0 := by decide
/-- V-A35 (Y ignored) and V-A36. -/
theorem test_shl :
    (run 0x801E (V 0 1 (V 1 0x80))).reg 0 = 2 ∧ (run 0x801E (V 0 1 (V 1 0x80))).reg 15 = 0 ∧
      (run 0x8FFE (V 15 0x80)).reg 15 = 1 := by decide
/-- V-M1. -/
theorem test_ldI : (run 0xA123 (State.reset.setIndex 0xFFFF#16)).i = 0x123#16 := by decide
/-- V-M3 (no flag) and V-M4. -/
theorem test_addIX :
    (run 0xF01E (V 0 1 (State.reset.setIndex 0xFFF#16))).i = 0 ∧ (run 0xF01E (V 0 1 (State.reset.setIndex 0xFFF#16))).reg 15 = 0 ∧
      (run 0xF01E (V 0 0xFF (State.reset.setIndex 0xFF0#16))).i = 0x0EF#16 := by decide
/-- V-M9 and V-M7. -/
theorem test_ldFX : (run 0xF029 (V 0 0xFF)).i = 0x4FB#16 ∧ (run 0xF029 (V 0 0x0F)).i = 0x04B#16 := by decide
/-- V-M11. -/
theorem test_ldBX :
    (run 0xF033 (V 0 255 (State.reset.setIndex 0x300#16))).bytesAt 0x300#16 3 = [2, 5, 5] := by decide
/-- V-M15. -/
theorem test_ldBX_font_fault :
    (run 0xF033 (V 0 123 (State.reset.setIndex 0xFFE#16))).status = some (.fontRegionWrite 0x200#16 0xF033#16 0x000#12) ∧
      (run 0xF033 (V 0 123 (State.reset.setIndex 0xFFE#16))).bytesAt 0xFFE#16 3 = [0, 0, 0xF0] := by decide
/-- V-M25. -/
theorem test_ldMemX_increment :
    let s := run 0xF255 (V 0 1 (V 1 2 (V 2 3 { State.reset with i := 0x300#16, policy := ⟨.fault, true⟩ })))
    s.bytesAt 0x300#16 4 = [1, 2, 3, 0] ∧ s.i = 0x303#16 := by decide
/-- V-M16 and V-M17 are of FX33; the same addresses under FX55: the byte at 0x000 is written, or dropped. -/
theorem test_ldMemX_policies :
    (run 0xF155 (V 0 7 (V 1 9 { State.reset with i := 0xFFF#16, policy := ⟨.write, false⟩ }))).bytesAt 0xFFF#16 2 = [7, 9] ∧
    (run 0xF155 (V 0 7 (V 1 9 { State.reset with i := 0xFFF#16, policy := ⟨.drop, false⟩ }))).bytesAt 0xFFF#16 2 = [7, 0xF0] := by
  decide
/-- V-M26: the default font is readable (glyph 0). -/
theorem test_ldXMem_font : (run 0xF465 State.reset).regsUpTo 4 = [0xF0, 0x90, 0x90, 0x90, 0xF0] := by decide
/-- V-M24. -/
theorem test_ldXMem : (run 0xF065 ((V 1 0x99 (State.reset.setIndex 0x300#16)).poke 0x300#12 0x12)).regsUpTo 1 = [0x12, 0x99] := by
  decide
/-- V-D5. -/
theorem test_drw_wraps :
    let s := run 0xD012 (((V 0 0x3E (V 1 0x1F (State.reset.setIndex 0x300#16))).poke 0x300#12 0xC0).poke 0x301#12 0x81)
    s.pixel 31 62 = 1 ∧ s.pixel 31 63 = 1 ∧ s.pixel 0 62 = 1 ∧ s.pixel 0 5 = 1 ∧ s.pixel 0 63 = 0 ∧ s.reg 15 = 0 := by decide
/-- V-D6: collision. -/
theorem test_drw_collision :
    let s := run 0xD011 (({ State.reset with i := 0x300#16, fb := setPixel clearFramebuffer 0 0 1 }).poke 0x300#12 0x80)
    s.pixel 0 0 = 0 ∧ s.reg 15 = 1 := by decide
/-- V-K5: the key index is masked. -/
theorem test_skp : (run 0xE09E (V 0 0x13 { State.reset with keys := State.reset.keys.set 3 1 })).pc = 0x204#16 := by decide
/-- V-K4: any nonzero byte is pressed. -/
theorem test_sknp : (run 0xE5A1 (V 5 7 { State.reset with keys := State.reset.keys.set 7 0xFF })).pc = 0x202#16 := by decide
/-- V-K10. -/
theorem test_ldXDt : (run 0xF107 (State.reset.setDelay 0x3C)).reg 1 = 0x3C#8 := by decide
/-- V-K6. -/
theorem test_ldXK_waits :
    (run 0xF30A (State.reset.setPc 0x220#16)).status = some .keyWait ∧ (run 0xF30A (State.reset.setPc 0x220#16)).pc = 0x220#16 := by
  decide
/-- V-K8: the least index. -/
theorem test_ldXK : (run 0xF30A { State.reset with keys := (State.reset.keys.set 9 1).set 2 1 }).reg 3 = 2 := by decide
/-- V-K11 and V-K12. -/
theorem test_timers_set : (run 0xF215 (V 2 0x3C)).dt = 0x3C#8 ∧ (run 0xF218 (V 2 0x05)).st = 0x05#8 := by decide
/-- V-K13. -/
theorem test_timerTick :
    (State.reset.setDelay 1).timerTick.dt = 0 ∧ (State.reset.setDelay 1).timerTick.st = 0 := by decide
/-- V-S8 and V-E4: an unrecognized word goes on; a halted block does not. -/
theorem test_unrecognized_and_halted :
    (run 0xFFFF State.reset).status = some (.unrecognized 0xFFFF#16) ∧ (run 0xFFFF State.reset).pc = 0x202#16 ∧
      (after (step { State.reset with halted := true })).status = some .halted ∧
      (after (step { State.reset with halted := true })).pc = 0x200#16 := by decide
/-- 20_memory.md R55: the fetch at 0xFFF takes its low byte from 0x000. -/
theorem test_fetch_wraps : ((State.reset.poke 0xFFF#12 0x12).fetch 0xFFF#16) = 0x12F0#16 := by decide
/-- P7: the glyph of A begins at 0x032. -/
theorem test_font_glyph_A : State.reset.bytesAt 0x032#16 5 = [0xF0, 0x90, 0xF0, 0x90, 0x90] := by decide

/-! ### Witnesses: states and operands that meet the hypotheses of each statement, clause by clause, at the ends of a range -/

/-- A state with the stack full and `pc` at the last even address. -/
def full : State := (held 16 0xFFF#16).setPc 0xFFE#16

/-- A state whose `I` is `w`, under the given policies. -/
def at' (w : Word) (p : FontWritePolicy := .fault) (inc : Bool := false) : State :=
  { State.reset with i := w, policy := ⟨p, inc⟩ }

theorem binary_reset (y : Row) (x : Column) : State.reset.pixel y x = 0 ∨ State.reset.pixel y x = 1 :=
  .inl (by simp [State.pixel, pixelOf, State.reset])

theorem inv_full : Inv full where
  pcRange := by decide
  stackRange := by decide
  memWf := rfl
  pixels := binary_reset
  latch := ⟨fun h => by simp [full, held, State.reset] at h, fun ⟨_, h, _⟩ => by simp [full, held, State.reset] at h⟩

theorem witness_DecodeEncodeRoundTrip :
    (Instr.sys 0x0EF#12).wellFormed = true ∧ (Instr.sys 0xFFF#12).wellFormed = true ∧ (Instr.drw 15 0 15).wellFormed = true := by
  decide
theorem witness_EncodeDecodeRoundTrip :
    decode 0x0000#16 = .instr (.sys 0) ∧ decode 0xFF65#16 = .instr (.ldXMem 15) := by decide
theorem witness_UnrecognizedWordsExactly :
    decode 0x5001#16 = .unrecognized 0x5001#16 ∧ decode 0x8FFD#16 = .unrecognized 0x8FFD#16 ∧
      decode 0x9FFF#16 = .unrecognized 0x9FFF#16 ∧ decode 0xE09F#16 = .unrecognized 0xE09F#16 ∧
      decode 0xF054#16 = .unrecognized 0xF054#16 ∧ decode 0x0FFF#16 = .instr (.sys 0xFFF#12) := by decide
theorem witness_StepRunsDecodedInstruction :
    ({ State.reset with halted := true }).halted = true ∧
    (State.reset.withFetchWord 16 0x6A7B).halted = false ∧
    decode ((State.reset.withFetchWord 16 0x6A7B).fetch (State.reset.withFetchWord 16 0x6A7B).pc) = .instr (.ldImm 10 0x7B#8) ∧
    decode ((State.reset.withFetchWord 16 0xFFFF).fetch (State.reset.withFetchWord 16 0xFFFF).pc) =
      .unrecognized 0xFFFF#16 := by decide
/-- Also for LatchSetByFatalStatusOnly and UnrecognizedWordIsReported. -/
theorem witness_FatalStatusIsPrecise :
    ∃ t u, step (full.withFetchWord 16 0x2300) = .next t ∧ t.status = some u ∧ u.fatal = true :=
  ⟨_, .stackOverflow 0xFFE#16 0x2300#16, rfl, by decide⟩
theorem witness_LatchSetByFatalStatusOnly :
    (∃ t, step State.reset = .next t ∧ t.halted = false) ∧
      ∃ t, step { State.reset with halted := true } = .next t ∧ t.halted = true :=
  ⟨⟨_, rfl, by decide⟩, ⟨_, rfl, by decide⟩⟩
theorem witness_UnrecognizedWordIsReported :
    (State.reset.withFetchWord 16 0xF066).halted = false ∧
      decode ((State.reset.withFetchWord 16 0xF066).fetch (State.reset.withFetchWord 16 0xF066).pc) =
        .unrecognized 0xF066#16 := by decide
/-- One instruction for each of the five ways. -/
theorem witness_EveryInstructionEndsTheCycleOneWay :
    Inv full ∧ (∃ t, exec .cls full = .next t) ∧ (∃ t, exec (.skp 0) full = .next t) ∧ (∃ t, exec .ret full = .next t) ∧
      (∃ t, exec (.ldXK 0) full = .next t) ∧ ∃ t, exec (.call 0) full = .next t :=
  ⟨inv_full, ⟨_, rfl⟩, ⟨_, rfl⟩, ⟨_, rfl⟩, ⟨_, rfl⟩, ⟨_, rfl⟩⟩
theorem witness_AdvancesWrapAtTwelveBits : full.pc = 0xFFE#16 ∧ full.reg 15 = 0#8 := by decide
theorem witness_ReturnPopsTheStack :
    (held 0 0).sp.val = 0 ∧ (held 1 0).sp.val = (0 : Fin 16).val + 1 ∧ (held 16 0).sp.val = (15 : Fin 16).val + 1 := by decide
/-- Also for CallThenReturnComesBack, whose second state may be the one the call leaves. -/
theorem witness_CallPushesTheReturnAddress :
    (held 16 0).sp.val = 16 ∧ (held 0 0).sp.val = (0 : Fin 16).val ∧ (held 15 0).sp.val = (15 : Fin 16).val := by decide
theorem witness_CallThenReturnComesBack :
    (held 15 0).sp.val < 16 ∧ ∃ t, exec (.call 0x300#12) (held 15 0) = .next t ∧
      ∃ u : State, u.sp = t.sp ∧ ∀ k : Fin 16, k.val < t.sp.val → u.stack[k] = t.stack[k] :=
  ⟨by decide, _, rfl, _, rfl, fun _ _ => rfl⟩
/-- Bit 7 is clear in 0x7F. -/
theorem witness_RandomByteIsMasked : 7 < 8 ∧ (0x7F#8).getLsbD 7 = false ∧ 0 < 8 ∧ (0xFE#8).getLsbD 0 = false := by decide
/-- Also for SubtractionsSetNotBorrow and ShiftsSetTheBitShiftedOut. -/
theorem witness_AddSetsCarry : (14 : Reg) ≠ vf ∧ (0 : Reg) ≠ vf := by decide
theorem witness_FontRegionWriteIsFatal :
    (at' 0x04F#16).policy.fontWrite = .fault ∧ (0 < 3 ∧ (addrAt (at' 0x04F#16).i 0).toNat < 0x050) ∧
      (2 < 3 ∧ (addrAt (at' 0xFFE#16).i 2).toNat < 0x050) ∧
      (15 < (15 : Reg).val + 1 ∧ (addrAt (at' 0xFF1#16).i 15).toNat < 0x050) := by decide
theorem witness_BcdStoreWritesThreeDigits :
    Memory.wf (at' 0x050#16).mem = true ∧ (∀ k, k < 3 → 0x050 ≤ (addrAt (at' 0x050#16).i k).toNat) ∧
    (∀ k, k < 3 → 0x050 ≤ (addrAt (at' 0xFFD#16).i k).toNat) ∧
    ((at' 0xFFE#16 .write).policy.fontWrite = .write ∧ (addrAt (at' 0xFFE#16 .write).i 2).toNat < 0x050) ∧
    ((at' 0x04F#16 .drop).policy.fontWrite = .drop ∧ (addrAt (at' 0x04F#16 .drop).i 0).toNat < 0x050 ∧
      0x050 ≤ (addrAt (at' 0x04F#16 .drop).i 1).toNat) := by decide
theorem witness_BulkStoreWritesRegisters :
    Memory.wf (at' 0xFF0#16).mem = true ∧ (∀ k, k ≤ (15 : Reg).val → 0x050 ≤ (addrAt (at' 0xFF0#16).i k).toNat) ∧
    (at' 0xFF0#16 .fault true).policy.ldstIncrementsI = true ∧
    ((15 : Reg) ≤ 15 ∧ (at' 0xFF1#16 .write).policy.fontWrite = .write) ∧
    ((at' 0xFF1#16 .drop).policy.fontWrite = .drop ∧ (addrAt (at' 0xFF1#16 .drop).i 15).toNat < 0x050) := by decide
theorem witness_BulkLoadReadsRegisters :
    (15 : Reg) ≤ 15 ∧ (0 : Reg) ≤ 0 ∧ (at' 0xFFF#16 .fault true).policy.ldstIncrementsI = true := by decide
theorem witness_BcdDigitsSpellTheRegister :
    Memory.wf (at' 0xFFD#16).mem = true ∧ ∀ k, k < 3 → 0x050 ≤ (addrAt (at' 0xFFD#16).i k).toNat := by decide
theorem witness_StoreThenLoadGivesRegistersBack :
    Memory.wf (at' 0x050#16).mem = true ∧ (∀ k, k ≤ (15 : Reg).val → 0x050 ≤ (addrAt (at' 0x050#16).i k).toNat) ∧
      ∃ t, exec (.ldMemX 15) (at' 0x050#16) = .next t ∧ ∃ u : State, u.i = (at' 0x050#16).i ∧
        ∀ k, k ≤ (15 : Reg).val → u.memRead (addrAt (at' 0x050#16).i k) = t.memRead (addrAt (at' 0x050#16).i k) :=
  ⟨by decide, by decide, _, rfl, _, rfl, fun _ _ => rfl⟩
theorem witness_StoreIsSeenByTheNextFetch :
    Memory.wf (at' 0xFF0#16).mem = true ∧ (∀ j, j ≤ (15 : Reg).val → 0x050 ≤ (addrAt (at' 0xFF0#16).i j).toNat) ∧
      (14 : Reg) < 15 := by decide
/-- Row 14, column 7 of a sprite of 15 rows at (63, 31); and a pixel that a sprite of one row at (0, 0) does not address. -/
theorem witness_DrawUpdatesTheAddressedPixels :
    (14 < (15 : RowCount).val ∧ 7 < 8 ∧ (13 : Row).val = (((V 0 63 (V 1 31)).reg 1).toNat + 14) % 32 ∧
      (6 : Column).val = (((V 0 63 (V 1 31)).reg 0).toNat + 7) % 64) ∧
    ∀ r c, r < (1 : RowCount).val → c < 8 →
      ¬((31 : Row).val = ((State.reset.reg 1).toNat + r) % 32 ∧ (8 : Column).val = ((State.reset.reg 0).toNat + c) % 64) :=
  ⟨by decide, fun r c hr hc h => by simp [State.reg, State.reset] at hr h; omega⟩
theorem witness_DrawXorsTheSprite : ∀ (y : Row) (x : Column), State.reset.pixel y x = 0 ∨ State.reset.pixel y x = 1 := binary_reset
/-- The second state is the one the first draw leaves, and the first draw turns no pixel off. -/
theorem witness_DrawingTwiceRestoresTheScreen :
    (∀ (y : Row) (x : Column), State.reset.pixel y x = 0 ∨ State.reset.pixel y x = 1) ∧
    ∃ t, exec (.drw 0 1 5) State.reset = .next t ∧ t.reg vf = 0 ∧ ∃ u : State, u.fb = t.fb ∧
      u.reg 0 = State.reset.reg 0 ∧ u.reg 1 = State.reset.reg 1 ∧ u.i = State.reset.i ∧
      ∀ r, r < (5 : RowCount).val → u.memRead (addrAt State.reset.i r) = State.reset.memRead (addrAt State.reset.i r) :=
  ⟨binary_reset, _, rfl, by decide, _, rfl, by decide, by decide, rfl, fun _ _ => rfl⟩
theorem witness_KeySkipsFollowTheKey :
    (15 : Key).val = ((V 0 0x1F).reg 0).toNat % 16 ∧ (0 : Key).val = ((V 0 0xF0).reg 0).toNat % 16 := by decide
theorem witness_KeyWaitTakesTheLeastKeyOrHolds :
    ({ State.reset with keys := State.reset.keys.set 15 1 }).keys[(15 : Key)] ≠ 0 ∧
    (∀ j : Key, j < 15 → ({ State.reset with keys := State.reset.keys.set 15 1 }).keys[j] = 0) ∧
    ∀ k : Key, State.reset.keys[k] = 0 := by decide
theorem witness_KeyWaitIsRepeated :
    ∃ t, step (State.reset.withFetchWord 16 0xF00A) = .next t ∧ t.status = some .keyWait := ⟨_, rfl, by decide⟩
theorem witness_EveryStepKeepsTheInvariant : Inv full ∧ ∃ t, step full = .next t := ⟨inv_full, _, rfl⟩
/-- A launch, and a launch, a tick and a step. -/
theorem witness_EveryReachableStateHasTheInvariant :
    (Inv full ∧ ∃ t, transact (.load 0x200#12 1) full = .next t) ∧ Reachable (State.resetWith {}) ∧ ∃ s, Reachable s ∧ s.status.isSome = true :=
  ⟨⟨inv_full, _, rfl⟩, .launch {}, _, .next .step (.next .timerTick (.launch {}) rfl) rfl, rfl⟩
theorem witness_OnlyNamedInstructionsWriteRegisters :
    (∃ t, exec (.addReg 0 1) State.reset = .next t) ∧ (14 : Reg) ∉ registersWritten (.addReg 0 1) ∧
      (∃ t, exec (.ldXMem 14) State.reset = .next t) ∧ (15 : Reg) ∉ registersWritten (.ldXMem 14) :=
  ⟨⟨_, rfl⟩, by decide, ⟨_, rfl⟩, by decide⟩
/-- Each clause's premise holds after some instruction. -/
theorem witness_OnlyNamedInstructionsChangeOtherState :
    (after (exec (.call 0) (held 15 0))).stack ≠ (held 15 0).stack ∧ (after (exec (.call 0) (held 15 0))).sp ≠ 15 ∧
    (after (exec .ret (held 1 0))).sp ≠ 1 ∧ (after (exec (.ldDtX 0) (V 0 1))).dt ≠ 0 ∧
    (after (exec (.ldStX 0) (V 0 1))).st ≠ 0 ∧ (after (exec (.drw 0 1 1) State.reset)).pixel 0 0 ≠ State.reset.pixel 0 0 ∧
    (after (exec (.ldBX 0) (V 0 1 (at' 0x300#16)))).mem ≠ [] ∧ (after (exec (.ldI 1) State.reset)).i ≠ 0 ∧
    (after (exec (.ldXMem 0) (at' 0x300#16 .fault true))).i ≠ 0x300#16 := by decide
theorem witness_WrittenIndexIsTwelveBits :
    ∃ t, step ((at' 0xFFFF#16).withFetchWord 16 0xA123) = .next t ∧ t.i ≠ 0xFFFF#16 := ⟨_, rfl, by decide⟩
/-- FX55 across the end of the font region under `drop`, and under `fault`. -/
theorem witness_FontRegionIsNeverOverwritten :
    Memory.wf (((V 0 1 (at' 0x04F#16 .drop))).withFetchWord 16 0xF155).mem = true ∧
      ((V 0 1 (at' 0x04F#16 .drop)).withFetchWord 16 0xF155).policy.fontWrite ≠ .write ∧
      ((V 0 1 (at' 0x04F#16)).withFetchWord 16 0xF155).policy.fontWrite ≠ .write ∧
      (∃ t, step ((V 0 1 (at' 0x04F#16 .drop)).withFetchWord 16 0xF155) = .next t) ∧ (0x04F#12).toNat < 0x050 :=
  ⟨by decide, by decide, by decide, ⟨_, rfl⟩, by decide⟩
theorem witness_OtherInstructionsIgnoreMemory :
    usesMemory .ret = false ∧ ∃ t, exec .ret (held 1 0) = .next t := ⟨rfl, _, rfl⟩
/-- FX65 of 16 bytes at 0x300, with another memory that differs at 0x310 only; DXYN likewise with 15 rows. -/
theorem witness_MemoryReadersReadTheirBytesOnly :
    (∀ k, k < (15 : Reg).val + 1 → State.memRead { at' 0x300#16 with mem := [(0x310, 1)] } (addrAt (at' 0x300#16).i k) =
      (at' 0x300#16).memRead (addrAt (at' 0x300#16).i k)) ∧
    (∃ t, exec (.ldXMem 15) (at' 0x300#16) = .next t) ∧ ∃ t, exec (.drw 0 1 15) (at' 0x300#16) = .next t :=
  ⟨by decide, ⟨_, rfl⟩, ⟨_, rfl⟩⟩
theorem witness_SoundTimerAndScreenAreNotReadable :
    (∃ t, exec (.ldXDt 0) State.reset = .next t) ∧ ∃ t, exec (.drw 0 1 1) State.reset = .next t := ⟨⟨_, rfl⟩, ⟨_, rfl⟩⟩
theorem witness_SelfJumpStaysThere :
    (State.reset.withFetchWord 16 0x1200).halted = false ∧ AtSelfJump (State.reset.withFetchWord 16 0x1200) :=
  ⟨rfl, 0x200#12, by decide, by decide⟩
/-- A launch, a tick and a step that returns Unrecognized. -/
theorem witness_GoodRunsAreNeverHalted : ∃ s, GoodRun s ∧ s.status = some (.unrecognized 0x0000#16) :=
  ⟨_, .step (.unrecognized 0x0000#16) (.host .timerTick (.launch (r := State.resetWith {}) (.inl ⟨_, rfl⟩)) nofun rfl) rfl rfl rfl, rfl⟩
/-- 6000 at 0x200, then 1202 (a jump to itself) at 0x202, whose last byte is still to be loaded. -/
def endsAtOnce : State := State.resetWith { memInit := [(0x200#12, 0x60), (0x202#12, 0x12)] }

/-- One Step after loading the normal end is reached, and not before. -/
theorem witness_NormalEndIsTheFirstSelfJump :
    ∃ s, NormalEnd endsAtOnce [.load 0x203#12 0x02] [.step] s :=
  ⟨after (step (after (transact (.load 0x203#12 0x02) endsAtOnce))), {
    launch := .inl ⟨_, rfl⟩
    loading := by simp [Transaction.duringLoading]
    lastLoad := by simp [Transaction.isLoad]
    running := by simp [Transaction.duringRun]
    reached := rfl
    notHalted := rfl
    atSelfJump := ⟨0x202#12, rfl, rfl⟩
    first := fun earlier rest t he hr ht => by
      cases earlier with
      | nil =>
        obtain rfl := Option.some.inj ht
        rintro ⟨-, nnn, hd, -⟩
        have : decode ((after (transact (.load 0x203#12 0x02) endsAtOnce)).fetch 0x200#16) = .instr (.ldImm 0 0) := rfl
        exact nomatch this.symm.trans hd
      | cons a as => simp_all }⟩
theorem witness_ResetBuildsTheLaunchState :
    let p : LaunchParams := { memInit := [(0x050#12, 7), (0xFFF#12, 9)] }
    (0x050#12, 7) ∈ p.memInit ∧ (∀ c ∈ p.memInit, c.1 = 0x050#12 → c.2 = 7) ∧ ∀ c ∈ p.memInit, c.1 ≠ 0xFFE#12 := by
  simp
theorem witness_LoadAndSetKeysFollowTheirRules :
    Memory.wf State.reset.mem = true ∧ (0x200 ≤ (0x200#12).toNat ∧ State.reset.status = none) ∧ (0x1FF#12).toNat < 0x200 ∧
      (after (step State.reset)).status ≠ none := by decide

end Sys2Proof.Machine.Tests
end

section
/-! SUPPORT. Proofs of the family 30_encoding.md: what a step runs (R80), and the ways in which an instruction can end the
cycle (R81). -/

namespace Sys2Proof.Machine

/-! ### What a step runs (R80) -/

theorem step_of_halted {s : State} (h : s.halted = true) : step s = .next (s.setStatus .halted) := if_pos h

theorem step_of_decode_instr {s : State} {i : Instr} (hh : s.halted = false) (hd : decode (s.fetch s.pc) = .instr i) :
    step s = exec i s := by
  simp [step, hh, hd]

theorem step_of_decode_unrecognized {s : State} {w : Word} (hh : s.halted = false)
    (hd : decode (s.fetch s.pc) = .unrecognized w) : step s = reportUnrecognized w s := by
  simp [step, hh, hd]

/-- Settles O6: one equation of `step` for each branch of R80. -/
theorem stepRunsDecodedInstruction : Obligations.StepRunsDecodedInstruction :=
  fun _ => ⟨step_of_halted, fun _ => step_of_decode_instr, fun _ => step_of_decode_unrecognized⟩

/-! ### How an instruction ends the cycle (R81) -/

/-- The outcome of an instruction `i` begun in `s`, as one of the shared ends of a cycle. A fall-through and a transfer may
follow other writes, which leave the latch alone; the other ends apply to `s` itself. -/
inductive CycleEnd (i : Instr) (s : State) : Host.Outcome State Fault Refusal → Prop where
  | fallsThrough (s' : State) (notSkip : isSkip i = false) (notTransfer : isTransfer i = false)
      (samePc : s'.pc = s.pc) (sameLatch : s'.halted = s.halted) : CycleEnd i s (fallThrough s')
  | reports (w : Word) (notSkip : isSkip i = false) (notTransfer : isTransfer i = false) :
      CycleEnd i s (reportUnrecognized w s)
  | skips (c : Bool) (skip : isSkip i = true) : CycleEnd i s (skipIf c s)
  | transfers (target : Word) (s' : State) (jumps : isTransfer i = true)
      (range : Inv s → target.toNat < 0x1000) (sameLatch : s'.halted = s.halted) : CycleEnd i s (transfer target s')
  | holds (x : Reg) (waits : i = .ldXK x) (noKey : ∀ k, s.pressed k = false) : CycleEnd i s (holdForKey s)
  | fails (u : Status) (mayFail : mayBeFatal i = true) (fatal : u.fatal = true)
      (origin : u.origin = some (s.pc, encode i)) : CycleEnd i s (raiseFatal u s)

theorem toNat_zext16_lt (a : Addr) : (zext16 a).toNat < 0x1000 := toNat_zext16 a ▸ a.isLt

/-- RET is fatal on an empty stack; otherwise its target is a held entry, which the invariant keeps below 0x1000. -/
theorem execRet_cycleEnd (s : State) : CycleEnd .ret s (execRet s) := by
  by_cases h : s.sp.val = 0
  · rw [execRet_empty h]
    exact .fails _ rfl rfl rfl
  · have hk : s.sp.val = (⟨s.sp.val - 1, by omega⟩ : Fin 16).val + 1 := by simp only; omega
    rw [execRet_entry _ hk]
    exact .transfers _ _ rfl (fun hinv => hinv.stackRange _ (by omega)) rfl

/-- CALL is fatal on a full stack; otherwise it goes to its operand. -/
theorem execCall_cycleEnd (nnn : Addr) (s : State) : CycleEnd (.call nnn) s (execCall nnn s) := by
  by_cases h : s.sp.val = 16
  · rw [execCall_full h]
    exact .fails _ rfl rfl rfl
  · rw [execCall_room ⟨s.sp.val, by omega⟩ rfl]
    exact .transfers _ _ rfl (fun _ => toNat_zext16_lt nnn) rfl

/-- FX0A falls through with a key, and holds without one. -/
theorem execLdXK_cycleEnd (x : Reg) (s : State) : CycleEnd (.ldXK x) s (execLdXK x s) := by
  unfold execLdXK
  split
  · exact .fallsThrough _ rfl rfl rfl rfl
  · next h => exact .holds x rfl (leastPressed_eq_none.1 h)

/-- A write of bytes at `I` is fatal as a whole or falls through. -/
theorem storeSequence_cycleEnd {i : Instr} (notSkip : isSkip i = false) (notTransfer : isTransfer i = false)
    (mayFail : mayBeFatal i = true) (bytes : List Byte) (finish : State → State) (s : State)
    (samePc : ∀ t, (finish t).pc = t.pc) (sameLatch : ∀ t, (finish t).halted = t.halted) :
    CycleEnd i s (storeSequence (encode i) bytes finish s) := by
  obtain ⟨a, -, h⟩ | ⟨-, h⟩ := storeSequence_cases (encode i) bytes finish s <;> rw [h]
  · exact .fails _ mayFail rfl rfl
  · exact .fallsThrough _ notSkip notTransfer (by simp [samePc]) (by simp [sameLatch])

/-- Every instruction ends the cycle in one of the ways of R81, from every state. -/
theorem exec_cycleEnd : ∀ (i : Instr) (s : State), CycleEnd i s (exec i s)
  | .ret, s => execRet_cycleEnd s
  | .call nnn, s => execCall_cycleEnd nnn s
  | .jp nnn, _ => .transfers _ _ rfl (fun _ => toNat_zext16_lt nnn) rfl
  | .jpV0 _, _ => .transfers _ _ rfl (fun _ => toNat_zext16_lt _) rfl
  | .sys _, _ => .reports _ rfl rfl
  | .seImm .., _ | .sneImm .., _ | .seReg .., _ | .sneReg .., _ | .skp _, _ | .sknp _, _ => .skips _ rfl
  | .ldXK x, s => execLdXK_cycleEnd x s
  | .ldBX _, s => storeSequence_cycleEnd rfl rfl rfl _ id s (fun _ => rfl) (fun _ => rfl)
  | .ldMemX x, s => storeSequence_cycleEnd rfl rfl rfl _ _ s (bumpIndex_pc x) (bumpIndex_halted x)
  | .ldXMem x, _ => .fallsThrough _ rfl rfl (bumpIndex_pc x _) (bumpIndex_halted x _)
  | .cls, _ | .ldImm .., _ | .addImm .., _ | .rnd .., _ | .ldReg .., _ | .orReg .., _ | .andReg .., _ | .xorReg .., _
  | .addReg .., _ | .sub .., _ | .shr .., _ | .subn .., _ | .shl .., _ | .drw .., _ | .ldI _, _ | .addIX _, _
  | .ldFX _, _ | .ldXDt _, _ | .ldDtX _, _ | .ldStX _, _ => .fallsThrough _ rfl rfl rfl rfl

/-- Settles O13: each end of a cycle gives its clause of R81. -/
theorem everyInstructionEndsTheCycleOneWay : Obligations.EveryInstructionEndsTheCycleOneWay := by
  intro i s t hinv ht
  have hend : CycleEnd i s (.next t) := ht ▸ exec_cycleEnd i s
  cases hend with
  | fallsThrough s' notSkip notTransfer samePc => exact .inl ⟨notSkip, notTransfer, by simp [samePc], .inl rfl⟩
  | reports w notSkip notTransfer => exact .inl ⟨notSkip, notTransfer, rfl, .inr ⟨w, rfl⟩⟩
  | skips c skip => exact .inr (.inl ⟨skip, rfl, by cases c <;> simp⟩)
  | transfers target s' jumps range => exact .inr (.inr (.inl ⟨jumps, rfl, range hinv⟩))
  | holds x waits noKey => exact .inr (.inr (.inr (.inl ⟨⟨x, waits⟩, noKey, rfl⟩)))
  | fails u mayFail fatal => exact .inr (.inr (.inr (.inr ⟨mayFail, u, fatal, rfl⟩)))

end Sys2Proof.Machine
end

section
/-! SUPPORT. Proofs of the family 40_control_flow.md: what a step's last writes, of `pc` and the status, leave unchanged;
the jump (R102) and the register skips (R105 to R108). -/

namespace Sys2Proof.Machine

/-! ### Frames -/

theorem Unchanged.refl (f : Footprint) (s : State) : Unchanged f s s where
  regs _ _ := rfl
  index _ := rfl
  stack _ := ⟨rfl, rfl⟩
  delay _ := rfl
  sound _ := rfl
  memory _ _ := rfl
  display _ _ _ := rfl
  draws _ := rfl
  keys := rfl
  halted := rfl
  policy := rfl

/-- `pc` and the status are in no footprint, so writing them at the end of a cycle keeps every frame. -/
theorem Unchanged.setPc_setStatus {f : Footprint} {s s' : State} (h : Unchanged f s s') (target : Word) (u : Status) :
    Unchanged f s ((s'.setPc target).setStatus u) :=
  { h with }

/-! ### Jump (R102) -/

theorem exec_jp (nnn : Addr) (s : State) : exec (.jp nnn) s = transfer (zext16 nnn) s := rfl

/-- Settles O16: a transfer to the operand, which fits in `pc`. -/
theorem jumpGoesToItsAddress : Obligations.JumpGoesToItsAddress := fun nnn s =>
  ⟨_, (exec_jp nnn s).trans (transfer_eq ..), setStatus_status .., toNat_zext16 nnn,
    (Unchanged.refl {} s).setPc_setStatus ..⟩

/-! ### Register skips (R105 to R108) -/

/-- The shared end of the skips, on a flag that says whether `c` holds. -/
theorem skipIf_skipped {c : Prop} {b : Bool} (hb : b = true ↔ c) (s : State) :
    ∃ t, skipIf b s = .next t ∧ Skipped c s t := by
  refine ⟨_, skipIf_eq b s, ?_⟩
  exact {
    status := setStatus_status ..
    taken := fun hc => by simp [hb.2 hc]
    notTaken := fun hc => by simp [mt hb.1 hc]
    unchanged := (Unchanged.refl {} s).setPc_setStatus .. }

theorem exec_seImm (x : Reg) (nn : Byte) (s : State) : exec (.seImm x nn) s = skipIf (s.reg x = nn) s := rfl

theorem exec_sneImm (x : Reg) (nn : Byte) (s : State) : exec (.sneImm x nn) s = skipIf (s.reg x ≠ nn) s := rfl

theorem exec_seReg (x y : Reg) (s : State) : exec (.seReg x y) s = skipIf (s.reg x = s.reg y) s := rfl

theorem exec_sneReg (x y : Reg) (s : State) : exec (.sneReg x y) s = skipIf (s.reg x ≠ s.reg y) s := rfl

/-- Settles O19: each of the four is `skipIf` on its own condition. -/
theorem registerSkipsFollowTheirCondition : Obligations.RegisterSkipsFollowTheirCondition := by
  intro x y nn s
  rw [exec_seImm, exec_sneImm, exec_seReg, exec_sneReg]
  exact ⟨skipIf_skipped decide_eq_true_iff s, skipIf_skipped decide_eq_true_iff s,
    skipIf_skipped decide_eq_true_iff s, skipIf_skipped decide_eq_true_iff s⟩

end Sys2Proof.Machine
end

section
/-! SUPPORT. Proofs of the family 41_register_alu.md: the two shapes an instruction of the family has, a register written
and a register written before VF; the flags and the results as numbers. -/

namespace Sys2Proof.Machine

/-! ### Register writes and the fall-through, with their frame -/

/-- A register of the footprint may be written. -/
theorem Unchanged.setReg {f : Footprint} {s s' : State} (h : Unchanged f s s') {x : Reg} (hx : x ∈ f.regs) (b : Byte) :
    Unchanged f s (s'.setReg x b) :=
  { h with regs := fun y hy => (reg_setReg_of_ne s' b (by rintro rfl; exact hy hx)).trans (h.regs y hy) }

/-- The state a fall-through leaves, after writes that kept `pc` and a frame. -/
theorem FellThrough.of_unchanged {f : Footprint} {s s' : State} (h : Unchanged f s s') (hpc : s'.pc = s.pc) :
    FellThrough f s ((s'.setPc (advancePc s'.pc 2)).setStatus .ok) where
  status := rfl
  pc := congrArg (advancePc · 2) hpc
  unchanged := h.setPc_setStatus ..

/-- The instructions without a flag: one register is written. -/
theorem fallThrough_setReg (s : State) (x : Reg) (b : Byte) :
    ∃ t, fallThrough (s.setReg x b) = .next t ∧ t.reg x = b ∧ FellThrough { regs := [x] } s t :=
  ⟨_, fallThrough_eq _, reg_setReg_self s x b, .of_unchanged ((Unchanged.refl _ s).setReg (by simp) b) rfl⟩

/-- The instructions with a flag: VF is written last, so for X = 15 the flag replaces the result (R22). -/
theorem fallThrough_setReg_setFlag (s : State) (x : Reg) (b : Byte) (c : Bool) :
    ∃ t, fallThrough ((s.setReg x b).setFlag c) = .next t ∧ (x ≠ vf → t.reg x = b) ∧ t.reg vf = flagByte c ∧
      FellThrough { regs := [x, vf] } s t := by
  have hframe : Unchanged { regs := [x, vf] } s ((s.setReg x b).setFlag c) :=
    ((Unchanged.refl _ s).setReg (by simp) b).setReg (by simp) (flagByte c)
  refine ⟨_, fallThrough_eq _, fun hx => ?_, reg_setFlag_vf _ c, .of_unchanged hframe rfl⟩
  exact (reg_setFlag_of_ne _ c hx).trans (reg_setReg_self s x b)

/-! ### Results and flags as numbers -/

theorem toNat_byte_sub (a b : Byte) : (a - b).toNat = (a.toNat + 256 - b.toNat) % 256 := by
  rw [BitVec.toNat_sub]
  omega

theorem toNat_byte_shiftLeft_one (a : Byte) : (a <<< 1).toNat = a.toNat * 2 % 256 := by
  rw [BitVec.toNat_shiftLeft, Nat.shiftLeft_eq]

theorem toNat_byte_ushiftRight_one (a : Byte) : (a >>> 1).toNat = a.toNat / 2 := by
  rw [BitVec.toNat_ushiftRight, Nat.shiftRight_eq_div_pow]

theorem flagByte_decide (p : Prop) [Decidable p] : flagByte (decide p) = if p then 1 else 0 := by
  simp [flagByte]

/-- The flag that holds bit `k` of a byte. -/
theorem toNat_flagByte_getLsbD (a : Byte) (k : Nat) : (flagByte (a.getLsbD k)).toNat = a.toNat / 2 ^ k % 2 := by
  have hbit : a.toNat / 2 ^ k % 2 = (a.getLsbD k).toNat := (Nat.toNat_testBit ..).symm
  rw [hbit]
  cases a.getLsbD k <;> rfl

theorem flagByte_carryOut (a b : Byte) : flagByte (carryOut a b) = if a.toNat + b.toNat > 255 then 1 else 0 :=
  flagByte_decide _

theorem flagByte_noBorrow (a b : Byte) : flagByte (noBorrow a b) = if a.toNat ≥ b.toNat then 1 else 0 :=
  flagByte_decide _

theorem toNat_flagByte_shiftedOutRight (a : Byte) : (flagByte (shiftedOutRight a)).toNat = a.toNat % 2 := by
  rw [shiftedOutRight, toNat_flagByte_getLsbD, pow_zero, Nat.div_one]

theorem toNat_flagByte_shiftedOutLeft (a : Byte) : (flagByte (shiftedOutLeft a)).toNat = a.toNat / 128 := by
  rw [shiftedOutLeft, toNat_flagByte_getLsbD]
  omega

/-! ### Loads, copy and logic: no flag (R141, R142, R150 to R153) -/

theorem exec_ldImm (x : Reg) (nn : Byte) (s : State) : exec (.ldImm x nn) s = fallThrough (s.setReg x nn) := rfl

theorem exec_addImm (x : Reg) (nn : Byte) (s : State) :
    exec (.addImm x nn) s = fallThrough (s.setReg x (s.reg x + nn)) := rfl

theorem exec_ldReg (x y : Reg) (s : State) : exec (.ldReg x y) s = fallThrough (s.setReg x (s.reg y)) := rfl

theorem exec_orReg (x y : Reg) (s : State) : exec (.orReg x y) s = fallThrough (s.setReg x (s.reg x ||| s.reg y)) := rfl

theorem exec_andReg (x y : Reg) (s : State) : exec (.andReg x y) s = fallThrough (s.setReg x (s.reg x &&& s.reg y)) := rfl

theorem exec_xorReg (x y : Reg) (s : State) : exec (.xorReg x y) s = fallThrough (s.setReg x (s.reg x ^^^ s.reg y)) := rfl

/-- Settles O21: both write VX alone, and a sum of bytes wraps at 256. -/
theorem immediateLoadAndAdd : Obligations.ImmediateLoadAndAdd := by
  intro x nn s
  rw [exec_ldImm, exec_addImm]
  refine ⟨fallThrough_setReg s x nn, ?_⟩
  obtain ⟨t, ht, hx, hfell⟩ := fallThrough_setReg s x (s.reg x + nn)
  exact ⟨t, ht, by rw [hx, BitVec.toNat_add], hfell⟩

/-- Settles O23: each of the four writes its own value to VX alone. -/
theorem copyAndLogicTouchNoFlag : Obligations.CopyAndLogicTouchNoFlag := by
  intro x y s
  rw [exec_ldReg, exec_orReg, exec_andReg, exec_xorReg]
  exact ⟨fallThrough_setReg .., fallThrough_setReg .., fallThrough_setReg .., fallThrough_setReg ..⟩

/-! ### Sum, differences and shifts: VF last (R154 to R158) -/

theorem exec_addReg (x y : Reg) (s : State) :
    exec (.addReg x y) s = fallThrough ((s.setReg x (s.reg x + s.reg y)).setFlag (carryOut (s.reg x) (s.reg y))) := rfl

theorem exec_sub (x y : Reg) (s : State) :
    exec (.sub x y) s = fallThrough ((s.setReg x (s.reg x - s.reg y)).setFlag (noBorrow (s.reg x) (s.reg y))) := rfl

theorem exec_subn (x y : Reg) (s : State) :
    exec (.subn x y) s = fallThrough ((s.setReg x (s.reg y - s.reg x)).setFlag (noBorrow (s.reg y) (s.reg x))) := rfl

theorem exec_shr (x y : Reg) (s : State) :
    exec (.shr x y) s = fallThrough ((s.setReg x (s.reg x >>> 1)).setFlag (shiftedOutRight (s.reg x))) := rfl

theorem exec_shl (x y : Reg) (s : State) :
    exec (.shl x y) s = fallThrough ((s.setReg x (s.reg x <<< 1)).setFlag (shiftedOutLeft (s.reg x))) := rfl

/-- Settles O24: the wrapped sum is written, then the carry of the old operands. -/
theorem addSetsCarry : Obligations.AddSetsCarry := by
  intro x y s
  rw [exec_addReg]
  obtain ⟨t, ht, hx, hvf, hfell⟩ := fallThrough_setReg_setFlag s x (s.reg x + s.reg y) (carryOut (s.reg x) (s.reg y))
  exact ⟨t, ht, fun h => by rw [hx h, BitVec.toNat_add], hvf.trans (flagByte_carryOut ..), hfell⟩

/-- Both subtractions, for any minuend `a` and subtrahend `b`: the wrapped difference is written, then the flag. -/
theorem fallThrough_difference (s : State) (x : Reg) (a b : Byte) :
    ∃ t, fallThrough ((s.setReg x (a - b)).setFlag (noBorrow a b)) = .next t ∧
      (x ≠ vf → (t.reg x).toNat = (a.toNat + 256 - b.toNat) % 256) ∧
      t.reg vf = (if a.toNat ≥ b.toNat then 1 else 0) ∧ FellThrough { regs := [x, vf] } s t := by
  obtain ⟨t, ht, hx, hvf, hfell⟩ := fallThrough_setReg_setFlag s x (a - b) (noBorrow a b)
  exact ⟨t, ht, fun h => by rw [hx h, toNat_byte_sub], hvf.trans (flagByte_noBorrow ..), hfell⟩

/-- Settles O25: the two differ in which operand is the minuend. -/
theorem subtractionsSetNotBorrow : Obligations.SubtractionsSetNotBorrow := by
  intro x y s
  rw [exec_sub, exec_subn]
  exact ⟨fallThrough_difference s x (s.reg x) (s.reg y), fallThrough_difference s x (s.reg y) (s.reg x)⟩

/-- Settles O26: the shifted VX is written, then the bit of the old VX that fell out. -/
theorem shiftsSetTheBitShiftedOut : Obligations.ShiftsSetTheBitShiftedOut := by
  intro x y s
  rw [exec_shr, exec_shl]
  constructor
  · obtain ⟨t, ht, hx, hvf, hfell⟩ := fallThrough_setReg_setFlag s x (s.reg x >>> 1) (shiftedOutRight (s.reg x))
    exact ⟨t, ht, fun h => by rw [hx h, toNat_byte_ushiftRight_one],
      by rw [hvf, toNat_flagByte_shiftedOutRight], hfell⟩
  · obtain ⟨t, ht, hx, hvf, hfell⟩ := fallThrough_setReg_setFlag s x (s.reg x <<< 1) (shiftedOutLeft (s.reg x))
    exact ⟨t, ht, fun h => by rw [hx h, toNat_byte_shiftLeft_one],
      by rw [hvf, toNat_flagByte_shiftedOutLeft], hfell⟩

end Sys2Proof.Machine
end

section
/-! SUPPORT. Proofs of the family 42_index_memory.md: the shape of the instructions that write the index register alone, and
the load of `I` (R180). -/

namespace Sys2Proof.Machine

/-! ### Index writes, with their frame -/

/-- An index register in the footprint may be written. -/
theorem Unchanged.setIndex {f : Footprint} {s s' : State} (h : Unchanged f s s') (hf : f.index = true) (w : Word) :
    Unchanged f s (s'.setIndex w) :=
  { h with index := fun hkept => absurd (hf.symm.trans hkept) (by decide) }

/-- The instructions that write `I` alone. -/
theorem fallThrough_setIndex (s : State) (w : Word) :
    ∃ t, fallThrough (s.setIndex w) = .next t ∧ t.i = w ∧ FellThrough { index := true } s t :=
  ⟨_, fallThrough_eq _, setIndex_i s w, .of_unchanged ((Unchanged.refl _ s).setIndex rfl w) (setIndex_pc s w)⟩

/-! ### The load of `I` (R180) -/

theorem exec_ldI (nnn : Addr) (s : State) : exec (.ldI nnn) s = fallThrough (s.setIndex (zext16 nnn)) := rfl

/-- Settles O27: the 12-bit operand is written zero-extended, so its number is kept. -/
theorem loadIndexTakesTwelveBits : Obligations.LoadIndexTakesTwelveBits := by
  intro nnn s
  rw [exec_ldI]
  obtain ⟨t, ht, hi, hfell⟩ := fallThrough_setIndex s (zext16 nnn)
  exact ⟨t, ht, by rw [hi, toNat_zext16], hfell⟩

end Sys2Proof.Machine
end

section
/-! SUPPORT. Proofs of the family 43_display.md: framebuffer writes with their frame, the clear (R211), and the draw as a
whole: what it leaves at an addressed and at another pixel, and its collision (R214 to R216). -/

namespace Sys2Proof.Machine

/-! ### Framebuffer writes, with their frame -/

/-- A framebuffer in the footprint may be written. -/
theorem Unchanged.setFramebuffer {f : Footprint} {s s' : State} (h : Unchanged f s s') (hf : f.display = true)
    (fb : Framebuffer) : Unchanged f s { s' with fb := fb } :=
  { h with display := fun hkept => absurd (hf.symm.trans hkept) (by decide) }

/-! ### Clear (R211) -/

theorem exec_cls (s : State) : exec .cls s = fallThrough { s with fb := clearFramebuffer } := rfl

/-- Settles O37: the cleared framebuffer is the only write before the fall-through. -/
theorem clearScreenClearsEveryPixel : Obligations.ClearScreenClearsEveryPixel := fun s =>
  ⟨_, (exec_cls s).trans (fallThrough_eq _), pixelOf_clear,
    .of_unchanged ((Unchanged.refl _ s).setFramebuffer rfl clearFramebuffer) rfl⟩

/-! ### The pixel update (R216) -/

/-- On a pixel of 0 or 1 the update is the XOR of R215. -/
theorem pixelUpdate_fst_of_binary {p : Byte} (hp : p = 0 ∨ p = 1) (b : Bool) :
    (pixelUpdate p b).1 = p ^^^ (if b then 1 else 0) := by
  obtain rfl | rfl := hp <;> cases b <;> rfl

/-- The update hits exactly when it turns the pixel off. -/
theorem pixelUpdate_snd_iff_turnedOff (p : Byte) (b : Bool) :
    (pixelUpdate p b).2 = true ↔ p ≠ 0 ∧ (pixelUpdate p b).1 = 0 := by
  rw [pixelUpdate_snd]
  cases b with
  | false => simp [pixelUpdate]
  | true => simp +contextual [pixelUpdate]

/-! ### The addressed pixels (R214) -/

theorem eq_spriteLine_iff {oy : Byte} {r : Nat} {py : Row} : py = spriteLine oy r ↔ py.val = (oy.toNat + r) % 32 :=
  Fin.ext_iff

theorem eq_spriteColumn_iff {ox : Byte} {c : Nat} {px : Column} :
    px = spriteColumn ox c ↔ px.val = (ox.toNat + c) % 64 :=
  Fin.ext_iff

/-! ### The draw as a whole (R215, R216) -/

theorem exec_drw (x y : Reg) (n : RowCount) (s : State) :
    exec (.drw x y n) s = fallThrough ({ s with fb := (drawResult x y n s).1 }.setFlag (drawResult x y n s).2) := rfl

/-- A draw ends in a framebuffer write, then VF. -/
theorem fallThrough_setFramebuffer_setFlag (s : State) (fb : Framebuffer) (c : Bool) :
    ∃ t, fallThrough ({ s with fb := fb }.setFlag c) = .next t ∧ (∀ py px, t.pixel py px = pixelOf fb py px) ∧
      t.reg vf = flagByte c ∧ FellThrough { regs := [vf], display := true } s t := by
  have hframe : Unchanged { regs := [vf], display := true } s ({ s with fb := fb }.setFlag c) :=
    ((Unchanged.refl _ s).setFramebuffer rfl fb).setReg (by simp) (flagByte c)
  exact ⟨_, fallThrough_eq _, fun _ _ => rfl, reg_setFlag_vf _ c, .of_unchanged hframe rfl⟩

theorem bytesAt_length_le (s : State) (n : RowCount) : (s.bytesAt s.i n.val).length ≤ 32 := by
  rw [bytesAt_length]
  omega

theorem drawResult_at (x y : Reg) (n : RowCount) (s : State) {r c : Nat} (hr : r < n.val) (hc : c < 8) :
    pixelOf (drawResult x y n s).1 (spriteLine (s.reg y) r) (spriteColumn (s.reg x) c) =
      (pixelUpdate (s.pixel (spriteLine (s.reg y) r) (spriteColumn (s.reg x) c))
        (spriteBit (s.memRead (addrAt s.i r)) c)).1 := by
  have h := drawRows_at (s.reg x) (s.reg y) 0 (s.bytesAt s.i n.val) (s.fb, false) (bytesAt_length_le s n)
    (j := r) (by rwa [bytesAt_length]) hc
  rwa [getElem_bytesAt, Nat.zero_add] at h

theorem drawResult_other (x y : Reg) (n : RowCount) (s : State) {py : Row} {px : Column}
    (h : ∀ r c, r < n.val → c < 8 → ¬(py = spriteLine (s.reg y) r ∧ px = spriteColumn (s.reg x) c)) :
    pixelOf (drawResult x y n s).1 py px = s.pixel py px := by
  refine drawRows_other _ _ _ _ _ fun r c hr hc => ?_
  rw [Nat.zero_add]
  exact h r c (by rwa [bytesAt_length] at hr) hc

theorem drawResult_hit (x y : Reg) (n : RowCount) (s : State) :
    (drawResult x y n s).2 = true ↔ ∃ r c, r < n.val ∧ c < 8 ∧ spriteBit (s.memRead (addrAt s.i r)) c = true ∧
      s.pixel (spriteLine (s.reg y) r) (spriteColumn (s.reg x) c) ≠ 0 := by
  rw [drawResult, drawRows_hit _ _ _ _ _ (bytesAt_length_le s n)]
  simp only [bytesAt_length, getElem_bytesAt, Nat.zero_add, Bool.false_eq_true, false_or, exists_prop, State.pixel]

/-- The collision of a draw, said of the two framebuffers: some pixel of the screen went from on to off (R215). -/
theorem drawResult_hit_iff_turnedOff (x y : Reg) (n : RowCount) (s : State) :
    (drawResult x y n s).2 = true ↔ ∃ py px, s.pixel py px ≠ 0 ∧ pixelOf (drawResult x y n s).1 py px = 0 := by
  rw [drawResult_hit]
  constructor
  · rintro ⟨r, c, hr, hc, hbit, hlit⟩
    have hoff := (pixelUpdate_snd_iff_turnedOff _ _).1 ((pixelUpdate_snd _ _).2 ⟨hbit, hlit⟩)
    exact ⟨_, _, hlit, (drawResult_at x y n s hr hc).trans hoff.2⟩
  · rintro ⟨py, px, hlit, hoff⟩
    by_cases haddr : ∃ r c, r < n.val ∧ c < 8 ∧ py = spriteLine (s.reg y) r ∧ px = spriteColumn (s.reg x) c
    · obtain ⟨r, c, hr, hc, rfl, rfl⟩ := haddr
      rw [drawResult_at x y n s hr hc] at hoff
      obtain ⟨hbit, -⟩ := (pixelUpdate_snd _ _).1 ((pixelUpdate_snd_iff_turnedOff _ _).2 ⟨hlit, hoff⟩)
      exact ⟨r, c, hr, hc, hbit, hlit⟩
    · rw [drawResult_other x y n s fun r c hr hc h => haddr ⟨r, c, hr, hc, h⟩] at hoff
      exact absurd hoff hlit

theorem flagByte_of_iff {c : Bool} {p : Prop} [Decidable p] (h : c = true ↔ p) : flagByte c = if p then 1 else 0 := by
  simp only [flagByte, h]

/-- Settles O39: on 0 and 1 the pixel update is an XOR, and it hits exactly the pixels it turns off. -/
theorem drawXorsTheSprite : Obligations.DrawXorsTheSprite := by
  intro x y n s hbin
  rw [exec_drw]
  obtain ⟨t, ht, hpix, hvf, hfell⟩ :=
    fallThrough_setFramebuffer_setFlag s (drawResult x y n s).1 (drawResult x y n s).2
  refine ⟨t, ht, fun r c hr hc py px hpy hpx => ?_, fun py px hother => ?_, ?_, hfell⟩
  · obtain rfl := eq_spriteLine_iff.2 hpy
    obtain rfl := eq_spriteColumn_iff.2 hpx
    rw [hpix, drawResult_at x y n s hr hc]
    exact pixelUpdate_fst_of_binary (hbin _ _) _
  · rw [hpix]
    refine drawResult_other x y n s fun r c hr hc h => ?_
    exact hother r c hr hc ⟨eq_spriteLine_iff.1 h.1, eq_spriteColumn_iff.1 h.2⟩
  · simp only [hpix]
    rw [hvf]
    exact flagByte_of_iff (drawResult_hit_iff_turnedOff x y n s)

end Sys2Proof.Machine
end

section
/-! SUPPORT. Proofs of the family 44_keys_timers.md: timer writes with their frame, and the copies between a register and a
timer (R233, R235, R236). -/

namespace Sys2Proof.Machine

/-! ### Timer writes, with their frame -/

/-- A delay timer in the footprint may be written. -/
theorem Unchanged.setDelay {f : Footprint} {s s' : State} (h : Unchanged f s s') (hf : f.delay = true) (b : Byte) :
    Unchanged f s (s'.setDelay b) :=
  { h with delay := fun hkept => absurd (hf.symm.trans hkept) (by decide) }

/-- A sound timer in the footprint may be written. -/
theorem Unchanged.setSound {f : Footprint} {s s' : State} (h : Unchanged f s s') (hf : f.sound = true) (b : Byte) :
    Unchanged f s (s'.setSound b) :=
  { h with sound := fun hkept => absurd (hf.symm.trans hkept) (by decide) }

theorem fallThrough_setDelay (s : State) (b : Byte) :
    ∃ t, fallThrough (s.setDelay b) = .next t ∧ t.dt = b ∧ FellThrough { delay := true } s t :=
  ⟨_, fallThrough_eq _, setDelay_dt s b, .of_unchanged ((Unchanged.refl _ s).setDelay rfl b) (setDelay_pc s b)⟩

theorem fallThrough_setSound (s : State) (b : Byte) :
    ∃ t, fallThrough (s.setSound b) = .next t ∧ t.st = b ∧ FellThrough { sound := true } s t :=
  ⟨_, fallThrough_eq _, setSound_st s b, .of_unchanged ((Unchanged.refl _ s).setSound rfl b) (setSound_pc s b)⟩

/-! ### Copies between a register and a timer (R233, R235, R236) -/

theorem exec_ldXDt (x : Reg) (s : State) : exec (.ldXDt x) s = fallThrough (s.setReg x s.dt) := rfl

theorem exec_ldDtX (x : Reg) (s : State) : exec (.ldDtX x) s = fallThrough (s.setDelay (s.reg x)) := rfl

theorem exec_ldStX (x : Reg) (s : State) : exec (.ldStX x) s = fallThrough (s.setSound (s.reg x)) := rfl

/-- Settles O42: each of the three is one write, of a register or of a timer, and a fall-through. -/
theorem timerMovesCopyTheRegister : Obligations.TimerMovesCopyTheRegister := by
  intro x s
  rw [exec_ldXDt, exec_ldDtX, exec_ldStX]
  exact ⟨fallThrough_setReg s x s.dt, fallThrough_setDelay s (s.reg x), fallThrough_setSound s (s.reg x)⟩

end Sys2Proof.Machine
end

section
/-! SUPPORT. Proofs of the family 60_exceptions.md: the row SYS as the unrecognized case (R302). -/

namespace Sys2Proof.Machine

/-- The raw word of SYS is 0NNN: group nibble 0 adds nothing to the operand. -/
theorem encode_sys (nnn : Addr) : encode (.sys nnn) = nnn.setWidth 16 :=
  BitVec.eq_of_toNat_eq <| calc
    (encode (.sys nnn)).toNat = 0 * 4096 + nnn.toNat := toNat_encodeNNN 0#4 nnn
    _ = nnn.toNat := by omega
    _ = (nnn.setWidth 16).toNat := (toNat_zext16 nnn).symm

theorem exec_sys (nnn : Addr) (s : State) : exec (.sys nnn) s = reportUnrecognized (nnn.setWidth 16) s :=
  congrArg (reportUnrecognized · s) (encode_sys nnn)

/-- Settles O12: SYS is the report of its word 0NNN, which writes only `pc` and the status. -/
theorem sysIsReportedAsUnrecognized : Obligations.SysIsReportedAsUnrecognized := fun nnn s =>
  ⟨_, (exec_sys nnn s).trans (reportUnrecognized_eq ..), setStatus_status .., rfl,
    (Unchanged.refl {} s).setPc_setStatus ..⟩

end Sys2Proof.Machine
end

section
/-! SUPPORT. Encoding and decoding as a whole (spec/30_encoding.md R71 to R78): each is the inverse of the other, the decoder
agrees with the opcode map, and the rejected words are those the spec lists. -/

namespace Sys2Proof

/-! ### Every well-formed instruction decodes from its word -/

theorem encodeNNN_ne {op : BitVec 4} {a b : Addr} (h : a ≠ b) : encodeNNN op a ≠ encodeNNN op b := fun e =>
  h (by simpa using congrArg fieldNNN e)

/-- The fields that `decode` reads from a word of a format are those the encoder wrote; only a word of the row SYS has to
be told from CLS and RET. -/
theorem decode_encode : ∀ i : Instr, i.wellFormed = true → decode (encode i) = .instr i
  | .cls, _ | .ret, _ => rfl
  | .sys nnn, h => by
    simp only [Instr.wellFormed, Bool.and_eq_true, decide_eq_true_eq] at h
    have hcls : encodeNNN 0#4 nnn ≠ 0x00E0#16 := encodeNNN_ne (b := 0x0E0#12) h.1
    have hret : encodeNNN 0#4 nnn ≠ 0x00EE#16 := encodeNNN_ne (b := 0x0EE#12) h.2
    simp [decode, decodeGroup0, encode, hcls, hret]
  | .jp _, _ | .call _, _ | .ldI _, _ | .jpV0 _, _ => by simp [decode, encode]
  | .seImm .., _ | .sneImm .., _ | .ldImm .., _ | .addImm .., _ | .rnd .., _ => by simp [decode, encode]
  | .seReg .., _ | .sneReg .., _ | .drw .., _ => by simp [decode, encode]
  | .ldReg .., _ | .orReg .., _ | .andReg .., _ | .xorReg .., _ | .addReg .., _ | .sub .., _ | .shr .., _ | .subn .., _
  | .shl .., _ => by simp [decode, decodeGroup8, encode]
  | .skp _, _ | .sknp _, _ => by simp [decode, decodeGroupE, encode]
  | .ldXDt _, _ | .ldXK _, _ | .ldDtX _, _ | .ldStX _, _ | .addIX _, _ | .ldFX _, _ | .ldBX _, _ | .ldMemX _, _
  | .ldXMem _, _ => by simp [decode, decodeGroupF, encode]

/-- Settles O1, format by format. -/
theorem decodeEncodeRoundTrip : Obligations.DecodeEncodeRoundTrip := decode_encode

/-! ### A word that decodes to an instruction is its word -/

theorem fieldOp_of_toNat {w : Word} {k : Nat} (h : (fieldOp w).toNat = k) : fieldOp w = BitVec.ofNat 4 k := by
  rw [← h, BitVec.ofNat_toNat, BitVec.setWidth_eq]

theorem fieldN_of_toNat {w : Word} {k : Nat} (h : (fieldN w).toNat = k) : fieldN w = BitVec.ofNat 4 k := by
  rw [← h, BitVec.ofNat_toNat, BitVec.setWidth_eq]

theorem encodeNNN_of_op {w : Word} {op : BitVec 4} (hop : fieldOp w = op) : encodeNNN op (fieldNNN w) = w :=
  hop ▸ encodeNNN_fields w

theorem encodeXNN_of_fields {w : Word} {op : BitVec 4} {nn : Byte} (hop : fieldOp w = op) (hnn : fieldNN w = nn) :
    encodeXNN op (fieldX w) nn = w :=
  hop ▸ hnn ▸ encodeXNN_fields w

theorem encodeXYN_of_fields {w : Word} {op n : BitVec 4} (hop : fieldOp w = op) (hn : fieldN w = n) :
    encodeXYN op (fieldX w) (fieldY w) n = w :=
  hop ▸ hn ▸ encodeXYN_fields w

/-- What a decoding of the word says: its instruction is well-formed and has that word; a rejection carries it. -/
def Decoded.Inverts (w : Word) : Decoded → Prop
  | .instr i => i.wellFormed = true ∧ encode i = w
  | .unrecognized u => u = w

theorem decodeGroup0_inverts {w : Word} (hop : fieldOp w = 0#4) : (decodeGroup0 w).Inverts w := by
  unfold decodeGroup0
  split
  · next hw => exact ⟨rfl, hw.symm⟩
  split
  · next hw => exact ⟨rfl, hw.symm⟩
  next hcls hret =>
  have hword : encodeNNN 0#4 (fieldNNN w) = w := encodeNNN_of_op hop
  have hne (c : Addr) (hc : w ≠ encodeNNN 0#4 c) : fieldNNN w ≠ c := fun e => hc (e ▸ hword.symm)
  exact ⟨by simp [Instr.wellFormed, hne 0x0E0#12 hcls, hne 0x0EE#12 hret], hword⟩

theorem decodeGroup8_inverts {w : Word} (hop : fieldOp w = 0x8#4) : (decodeGroup8 w).Inverts w := by
  unfold decodeGroup8
  split
  case h_10 => rfl
  all_goals exact ⟨rfl, encodeXYN_of_fields hop (fieldN_of_toNat ‹_›)⟩

theorem decodeGroupE_inverts {w : Word} (hop : fieldOp w = 0xE#4) : (decodeGroupE w).Inverts w := by
  unfold decodeGroupE
  iterate 2
    split
    · exact ⟨rfl, encodeXNN_of_fields hop ‹_›⟩
  rfl

theorem decodeGroupF_inverts {w : Word} (hop : fieldOp w = 0xF#4) : (decodeGroupF w).Inverts w := by
  unfold decodeGroupF
  iterate 9
    split
    · exact ⟨rfl, encodeXNN_of_fields hop ‹_›⟩
  rfl

/-- Groups 5 and 9: an instruction where the low nibble is 0. -/
theorem ifNibbleZero_inverts {w : Word} {op : BitVec 4} {i : Instr} (hop : fieldOp w = op) (hi : i.wellFormed = true)
    (hword : encode i = encodeXYN op (fieldX w) (fieldY w) 0#4) :
    (if fieldN w = 0#4 then Decoded.instr i else .unrecognized w).Inverts w := by
  split
  · exact ⟨hi, hword.trans (encodeXYN_of_fields hop ‹_›)⟩
  · rfl

theorem decode_inverts (w : Word) : (decode w).Inverts w := by
  unfold decode
  split
  case h_1 h => exact decodeGroup0_inverts (fieldOp_of_toNat h)
  case h_2 h | h_3 h | h_11 h | h_12 h => exact ⟨rfl, encodeNNN_of_op (fieldOp_of_toNat h)⟩
  case h_4 h | h_5 h | h_7 h | h_8 h | h_13 h => exact ⟨rfl, encodeXNN_of_fields (fieldOp_of_toNat h) rfl⟩
  case h_6 h | h_10 h => exact ifNibbleZero_inverts (fieldOp_of_toNat h) rfl rfl
  case h_9 h => exact decodeGroup8_inverts (fieldOp_of_toNat h)
  case h_14 h => exact ⟨rfl, encodeXYN_of_fields (fieldOp_of_toNat h) rfl⟩
  case h_15 h => exact decodeGroupE_inverts (fieldOp_of_toNat h)
  case h_16 =>
    have hlt := (fieldOp w).isLt
    exact decodeGroupF_inverts (fieldOp_of_toNat (k := 15) (by grind))

theorem encode_of_decode {w : Word} {i : Instr} (h : decode w = .instr i) : i.wellFormed = true ∧ encode i = w := by
  have hinv := decode_inverts w
  rwa [h] at hinv

theorem eq_of_decode_unrecognized {w u : Word} (h : decode w = .unrecognized u) : u = w := by
  have hinv := decode_inverts w
  rwa [h] at hinv

/-- Settles O2, group by group. -/
theorem encodeDecodeRoundTrip : Obligations.EncodeDecodeRoundTrip := fun _ _ => encode_of_decode

/-! ### A word that matches a row decodes to the row's instruction -/

theorem fieldOp_eq_ofNat (w : Word) : fieldOp w = BitVec.ofNat 4 (w.toNat / 4096) := fieldOp_of_toNat (toNat_fieldOp w)

theorem fieldN_eq_ofNat (w : Word) : fieldN w = BitVec.ofNat 4 (w.toNat % 16) := fieldN_of_toNat (toNat_fieldN w)

theorem fieldNN_eq_ofNat (w : Word) : fieldNN w = BitVec.ofNat 8 (w.toNat % 256) := by
  rw [← toNat_fieldNN, BitVec.ofNat_toNat, BitVec.setWidth_eq]

theorem fieldOp_of_and_F000 {w p : Word} (h : w &&& 0xF000#16 = p) : fieldOp w = fieldOp p := by
  rw [← encodeNNN_fields w, encodeNNN_and_F000] at h
  rw [← h, fieldOp_encodeNNN]

theorem fields_of_and_F00F {w p : Word} (h : w &&& 0xF00F#16 = p) : fieldOp w = fieldOp p ∧ fieldN w = fieldN p := by
  rw [← encodeXYN_fields w, encodeXYN_and_F00F] at h
  rw [← h, fieldOp_encodeXYN, fieldN_encodeXYN]
  exact ⟨rfl, rfl⟩

theorem fields_of_and_F0FF {w p : Word} (h : w &&& 0xF0FF#16 = p) : fieldOp w = fieldOp p ∧ fieldNN w = fieldNN p := by
  rw [← encodeXNN_fields w, encodeXNN_and_F0FF] at h
  rw [← h, fieldOp_encodeXNN, fieldNN_encodeXNN]
  exact ⟨rfl, rfl⟩

/-- Every word that matches the row decodes to an instruction of the row's mnemonic. -/
def OpcodeRow.Decides (r : OpcodeRow) : Prop :=
  ∀ w : Word, r.matchesWord w = true → decodedMnemonics (decode w) = [r.mnemonic]

theorem and_mask_of_matchesWord {r : OpcodeRow} {w : Word} (h : r.matchesWord w = true) : w &&& r.mask = r.pattern := by
  simp only [OpcodeRow.matchesWord, Bool.and_eq_true, decide_eq_true_eq] at h
  exact h.1

/-- A row of one word. -/
theorem decides_of_word {m : String} {p : Word} (h : decodedMnemonics (decode p) = [m]) :
    OpcodeRow.Decides ⟨m, p, 0xFFFF#16, []⟩ := fun w hw => by
  have hword : w &&& 0xFFFF#16 = p := and_mask_of_matchesWord hw
  rw [show 0xFFFF#16 = BitVec.allOnes 16 from rfl, BitVec.and_allOnes] at hword
  rw [hword, h]

/-- A row that fixes the group. -/
theorem decides_of_op {m : String} {p : Word} {ex : List Word}
    (h : ∀ w, fieldOp w = BitVec.ofNat 4 (p.toNat / 4096) → w ∉ ex → decodedMnemonics (decode w) = [m]) :
    OpcodeRow.Decides ⟨m, p, 0xF000#16, ex⟩ := fun w hw => by
  have hex : w ∉ ex := by
    simp only [OpcodeRow.matchesWord, Bool.and_eq_true] at hw
    simpa using hw.2
  exact h w ((fieldOp_of_and_F000 (and_mask_of_matchesWord hw)).trans (fieldOp_eq_ofNat p)) hex

/-- A row that fixes the group and the low nibble. -/
theorem decides_of_op_n {m : String} {p : Word} {ex : List Word}
    (h : ∀ w, fieldOp w = BitVec.ofNat 4 (p.toNat / 4096) → fieldN w = BitVec.ofNat 4 (p.toNat % 16) →
      decodedMnemonics (decode w) = [m]) :
    OpcodeRow.Decides ⟨m, p, 0xF00F#16, ex⟩ := fun w hw => by
  obtain ⟨hop, hn⟩ := fields_of_and_F00F (and_mask_of_matchesWord hw)
  exact h w (hop.trans (fieldOp_eq_ofNat p)) (hn.trans (fieldN_eq_ofNat p))

/-- A row that fixes the group and the low byte. -/
theorem decides_of_op_nn {m : String} {p : Word} {ex : List Word}
    (h : ∀ w, fieldOp w = BitVec.ofNat 4 (p.toNat / 4096) → fieldNN w = BitVec.ofNat 8 (p.toNat % 256) →
      decodedMnemonics (decode w) = [m]) :
    OpcodeRow.Decides ⟨m, p, 0xF0FF#16, ex⟩ := fun w hw => by
  obtain ⟨hop, hnn⟩ := fields_of_and_F0FF (and_mask_of_matchesWord hw)
  exact h w (hop.trans (fieldOp_eq_ofNat p)) (hnn.trans (fieldNN_eq_ofNat p))

theorem opcodeMapLow_decides : ∀ r ∈ opcodeMapLow, r.Decides := by
  simp only [opcodeMapLow, List.forall_mem_cons]
  refine ⟨decides_of_word rfl, decides_of_word rfl, decides_of_op ?sys, decides_of_op ?_, decides_of_op ?_,
    decides_of_op ?_, decides_of_op ?_, decides_of_op_n ?seReg, decides_of_op ?_, decides_of_op ?_, List.forall_mem_nil _⟩
  case sys =>
    intro w hop hex
    have hne : w ≠ 0x00E0#16 ∧ w ≠ 0x00EE#16 := by simpa using hex
    simp [decode, decodeGroup0, hop, hne, decodedMnemonics, mnemonicOf]
  case seReg =>
    intro w hop hn
    simp [decode, hop, hn, decodedMnemonics, mnemonicOf]
  all_goals
    intro w hop _
    simp [decode, hop, decodedMnemonics, mnemonicOf]

theorem opcodeMapMid_decides : ∀ r ∈ opcodeMapMid, r.Decides := by
  simp only [opcodeMapMid, List.forall_mem_cons]
  refine ⟨decides_of_op_n ?_, decides_of_op_n ?_, decides_of_op_n ?_, decides_of_op_n ?_, decides_of_op_n ?_,
    decides_of_op_n ?_, decides_of_op_n ?_, decides_of_op_n ?_, decides_of_op_n ?_, decides_of_op_n ?_,
    decides_of_op ?_, decides_of_op ?_, decides_of_op ?_, decides_of_op ?_, List.forall_mem_nil _⟩
  all_goals
    intro w hop hn
    simp [decode, decodeGroup8, hop, hn, decodedMnemonics, mnemonicOf]

theorem opcodeMapHigh_decides : ∀ r ∈ opcodeMapHigh, r.Decides := by
  simp only [opcodeMapHigh, List.forall_mem_cons]
  refine ⟨decides_of_op_nn ?_, decides_of_op_nn ?_, decides_of_op_nn ?_, decides_of_op_nn ?_, decides_of_op_nn ?_,
    decides_of_op_nn ?_, decides_of_op_nn ?_, decides_of_op_nn ?_, decides_of_op_nn ?_, decides_of_op_nn ?_,
    decides_of_op_nn ?_, List.forall_mem_nil _⟩
  all_goals
    intro w hop hnn
    simp [decode, decodeGroupE, decodeGroupF, hop, hnn, decodedMnemonics, mnemonicOf]

theorem opcodeMap_decides : ∀ r ∈ opcodeMap, r.Decides := by
  intro r hr
  simp only [opcodeMap, List.mem_append] at hr
  obtain (hr | hr) | hr := hr
  · exact opcodeMapLow_decides r hr
  · exact opcodeMapMid_decides r hr
  · exact opcodeMapHigh_decides r hr

/-! ### The rows a word matches -/

/-- The word of every well-formed instruction matches a row of its mnemonic. -/
theorem row_of_instr : ∀ i : Instr, Laws.RowMatch.Statement i
  | .cls => Laws.RowMatch.cls
  | .ret => Laws.RowMatch.ret
  | .sys nnn => Laws.RowMatch.sys nnn
  | .jp nnn => Laws.RowMatch.jp nnn
  | .call nnn => Laws.RowMatch.call nnn
  | .seImm x nn => Laws.RowMatch.seImm x nn
  | .sneImm x nn => Laws.RowMatch.sneImm x nn
  | .seReg x y => Laws.RowMatch.seReg x y
  | .ldImm x nn => Laws.RowMatch.ldImm x nn
  | .addImm x nn => Laws.RowMatch.addImm x nn
  | .ldReg x y => Laws.RowMatch.ldReg x y
  | .orReg x y => Laws.RowMatch.orReg x y
  | .andReg x y => Laws.RowMatch.andReg x y
  | .xorReg x y => Laws.RowMatch.xorReg x y
  | .addReg x y => Laws.RowMatch.addReg x y
  | .sub x y => Laws.RowMatch.sub x y
  | .shr x y => Laws.RowMatch.shr x y
  | .subn x y => Laws.RowMatch.subn x y
  | .shl x y => Laws.RowMatch.shl x y
  | .sneReg x y => Laws.RowMatch.sneReg x y
  | .ldI nnn => Laws.RowMatch.ldI nnn
  | .jpV0 nnn => Laws.RowMatch.jpV0 nnn
  | .rnd x nn => Laws.RowMatch.rnd x nn
  | .drw x y n => Laws.RowMatch.drw x y n
  | .skp x => Laws.RowMatch.skp x
  | .sknp x => Laws.RowMatch.sknp x
  | .ldXDt x => Laws.RowMatch.ldXDt x
  | .ldXK x => Laws.RowMatch.ldXK x
  | .ldDtX x => Laws.RowMatch.ldDtX x
  | .ldStX x => Laws.RowMatch.ldStX x
  | .addIX x => Laws.RowMatch.addIX x
  | .ldFX x => Laws.RowMatch.ldFX x
  | .ldBX x => Laws.RowMatch.ldBX x
  | .ldMemX x => Laws.RowMatch.ldMemX x
  | .ldXMem x => Laws.RowMatch.ldXMem x

/-- No two rows have the same mnemonic, so no mnemonic is listed twice. -/
theorem mapMnemonics_nodup (w : Word) : (mapMnemonics w).Nodup := by
  have hnodup : (opcodeMap.map (·.mnemonic)).Nodup := by decide
  exact hnodup.sublist (List.filter_sublist.map _)

theorem mem_mapMnemonics {w : Word} {m : String} :
    m ∈ mapMnemonics w ↔ ∃ r ∈ opcodeMap, r.matchesWord w = true ∧ r.mnemonic = m := by
  simp only [mapMnemonics, List.mem_map, List.mem_filter, and_assoc]

theorem mem_mapMnemonics_iff_decoded (w : Word) (m : String) :
    m ∈ mapMnemonics w ↔ m ∈ decodedMnemonics (decode w) := by
  rw [mem_mapMnemonics]
  constructor
  · rintro ⟨r, hr, hw, rfl⟩
    simp [opcodeMap_decides r hr w hw]
  · intro hm
    cases hd : decode w with
    | unrecognized u => simp [hd, decodedMnemonics] at hm
    | instr i =>
      obtain ⟨hwf, rfl⟩ := encode_of_decode hd
      obtain rfl : m = mnemonicOf i := by simpa [hd, decodedMnemonics] using hm
      obtain ⟨r, hr, hname, hmatch⟩ := row_of_instr i hwf
      exact ⟨r, hr, hmatch, hname⟩

/-- Settles O3: both lists hold the same mnemonics, each once, and the decoder's holds at most one. -/
theorem decoderAgreesWithOpcodeMap : Obligations.DecoderAgreesWithOpcodeMap := by
  intro w
  have hperm {l : List String} (hl : decodedMnemonics (decode w) = l) (hn : l.Nodup) : (mapMnemonics w).Perm l :=
    (List.perm_ext_iff_of_nodup (mapMnemonics_nodup w) hn).2 (hl ▸ mem_mapMnemonics_iff_decoded w)
  cases hd : decode w with
  | instr i => exact List.perm_singleton.1 (hperm (hd ▸ rfl) (List.nodup_singleton _))
  | unrecognized u => exact List.perm_nil.1 (hperm (hd ▸ rfl) .nil)

/-! ### The rejected words (R78) -/

theorem fieldN_eq_iff {w : Word} {k : Nat} (hk : k < 16) : fieldN w = BitVec.ofNat 4 k ↔ w.toNat % 16 = k := by
  rw [← BitVec.toNat_inj, toNat_fieldN, BitVec.toNat_ofNat, Nat.mod_eq_of_lt hk]

theorem fieldNN_eq_iff {w : Word} {k : Nat} (hk : k < 256) : fieldNN w = BitVec.ofNat 8 k ↔ w.toNat % 256 = k := by
  rw [← BitVec.toNat_inj, toNat_fieldNN, BitVec.toNat_ofNat, Nat.mod_eq_of_lt hk]

theorem decodeGroup0_ne_unrecognized (w u : Word) : decodeGroup0 w ≠ .unrecognized u := by
  unfold decodeGroup0
  split
  · nofun
  · split <;> nofun

theorem decodeGroup8_eq_unrecognized_iff (w : Word) :
    decodeGroup8 w = .unrecognized w ↔ w.toNat % 16 ∈ [0x8, 0x9, 0xA, 0xB, 0xC, 0xD, 0xF] := by
  have hlt : w.toNat % 16 < 16 := Nat.mod_lt _ (by decide)
  unfold decodeGroup8
  rw [toNat_fieldN]
  split
  case h_10 =>
    have hmem : w.toNat % 16 ∈ [0x8, 0x9, 0xA, 0xB, 0xC, 0xD, 0xF] := by
      simp only [imp_false, List.mem_cons, List.not_mem_nil] at *
      omega
    simp [hmem]
  all_goals simp [*]

theorem decodeGroupE_eq_unrecognized_iff (w : Word) :
    decodeGroupE w = .unrecognized w ↔ w.toNat % 256 ∉ [0x9E, 0xA1] := by
  simp (disch := decide) only [decodeGroupE, fieldNN_eq_iff]
  iterate 2
    split
    · simp [*]
  simp [*]

theorem decodeGroupF_eq_unrecognized_iff (w : Word) :
    decodeGroupF w = .unrecognized w ↔ w.toNat % 256 ∉ [0x07, 0x0A, 0x15, 0x18, 0x1E, 0x29, 0x33, 0x55, 0x65] := by
  simp (disch := decide) only [decodeGroupF, fieldNN_eq_iff]
  iterate 9
    split
    · simp [*]
  simp [*]

theorem decode_eq_unrecognized_iff (w : Word) :
    decode w = .unrecognized w ↔
      (w.toNat / 4096 = 0x5 ∧ w.toNat % 16 ≠ 0) ∨
      (w.toNat / 4096 = 0x8 ∧ w.toNat % 16 ∈ [0x8, 0x9, 0xA, 0xB, 0xC, 0xD, 0xF]) ∨
      (w.toNat / 4096 = 0x9 ∧ w.toNat % 16 ≠ 0) ∨
      (w.toNat / 4096 = 0xE ∧ w.toNat % 256 ∉ [0x9E, 0xA1]) ∨
      (w.toNat / 4096 = 0xF ∧ w.toNat % 256 ∉ [0x07, 0x0A, 0x15, 0x18, 0x1E, 0x29, 0x33, 0x55, 0x65]) := by
  have hlt : w.toNat / 4096 < 16 := by omega
  rw [← decodeGroup8_eq_unrecognized_iff, ← decodeGroupE_eq_unrecognized_iff, ← decodeGroupF_eq_unrecognized_iff]
  unfold decode
  rw [toNat_fieldOp]
  split
  case h_16 =>
    have hop : w.toNat / 4096 = 15 := by grind
    simp [hop]
  all_goals simp [*, decodeGroup0_ne_unrecognized, fieldN_eq_iff (show 0 < 16 by decide)]

theorem decode_eq_sys_iff (w : Word) :
    (∃ nnn, decode w = .instr (.sys nnn)) ↔ w.toNat / 4096 = 0 ∧ w ≠ 0x00E0#16 ∧ w ≠ 0x00EE#16 := by
  constructor
  · rintro ⟨nnn, h⟩
    refine ⟨?_, (by rintro rfl; cases h), (by rintro rfl; cases h)⟩
    rw [← toNat_fieldOp, ← (encode_of_decode h).2, encode, fieldOp_encodeNNN]
    rfl
  · rintro ⟨hop, hcls, hret⟩
    rw [← toNat_fieldOp] at hop
    exact ⟨fieldNNN w, by simp [decode, decodeGroup0, hop, hcls, hret]⟩

/-- Settles O4, from what each group rejects. -/
theorem unrecognizedWordsExactly : Obligations.UnrecognizedWordsExactly := fun w =>
  ⟨decode_eq_unrecognized_iff w, fun _ => eq_of_decode_unrecognized, decode_eq_sys_iff w⟩

/-- Settles O5, by decoding the words. -/
theorem sampleWordsDecode : Obligations.SampleWordsDecode := by
  unfold Obligations.SampleWordsDecode
  decide

end Sys2Proof
end

section
/-! SUPPORT. What an instruction and a step can write: one inversion, and what it says of each part of the state
(spec/10_state.md sections 1 to 8, spec/20_memory.md R58). -/

namespace Sys2Proof.Machine

/-! ### The writes of an instruction -/

/-- What `i`, begun in `s`, has written when it comes to the end of its cycle, which writes `pc`, latch and status. -/
inductive Writes (i : Instr) (s : State) : State → Prop where
  | nothing : Writes i s s
  | register (x : Reg) (b : Byte) (written : x ∈ registersWritten i) : Writes i s (s.setReg x b)
  | random (x : Reg) (b : Byte) (written : x ∈ registersWritten i) : Writes i s (s.takeDraw.setReg x b)
  | flagged (x : Reg) (b : Byte) (c : Bool) (written : x ∈ registersWritten i) (flag : vf ∈ registersWritten i) :
      Writes i s ((s.setReg x b).setFlag c)
  | index (a : Addr) (who : (∃ nnn, i = .ldI nnn) ∨ ∃ x, i = .addIX x ∨ i = .ldFX x) :
      Writes i s (s.setIndex (zext16 a))
  | delay (b : Byte) (who : ∃ x, i = .ldDtX x) : Writes i s (s.setDelay b)
  | sound (b : Byte) (who : ∃ x, i = .ldStX x) : Writes i s (s.setSound b)
  | clear (who : i = .cls) : Writes i s { s with fb := clearFramebuffer }
  | draw (x y : Reg) (n : RowCount) (who : i = .drw x y n) :
      Writes i s ({ s with fb := (drawResult x y n s).1 }.setFlag (drawResult x y n s).2)
  | digits (x : Reg) (who : i = .ldBX x) : Writes i s (storeFrom s.i 0 (bcdDigits (s.reg x)) s)
  | store (x : Reg) (who : i = .ldMemX x) : Writes i s (bumpIndex x (storeFrom s.i 0 (s.regsUpTo x) s))
  | load (x : Reg) (who : i = .ldXMem x) : Writes i s (bumpIndex x (s.loadRegs x))
  | pop (k : Fin 16) (who : i = .ret) (held : s.sp.val = k.val + 1) : Writes i s { s with sp := ⟨k.val, by omega⟩ }
  | push (k : Fin 16) (nnn : Addr) (who : i = .call nnn) (held : s.sp.val = k.val) :
      Writes i s { s with stack := s.stack.set k (advancePc s.pc 2), sp := ⟨k.val + 1, by omega⟩ }

/-- The outcome is a next state that differs from what `i` wrote in `pc`, the latch and the status alone. -/
def EndsAfter (i : Instr) (s : State) (o : Host.Outcome State Fault Refusal) : Prop :=
  ∃ s' p l u, Writes i s s' ∧ o = .next { s' with pc := p, halted := l, status := some u }

theorem execRet_endsAfter (s : State) : EndsAfter .ret s (execRet s) := by
  by_cases h : s.sp.val = 0
  · exact ⟨_, _, _, _, .nothing, execRet_empty h⟩
  · have hk : s.sp.val = (⟨s.sp.val - 1, by omega⟩ : Fin 16).val + 1 := by simp only; omega
    exact ⟨_, _, _, _, .pop _ rfl hk, execRet_entry _ hk⟩

theorem execCall_endsAfter (nnn : Addr) (s : State) : EndsAfter (.call nnn) s (execCall nnn s) := by
  by_cases h : s.sp.val = 16
  · exact ⟨_, _, _, _, .nothing, execCall_full h⟩
  · exact ⟨_, _, _, _, .push ⟨s.sp.val, by omega⟩ nnn rfl rfl, execCall_room _ rfl⟩

theorem execLdXK_endsAfter (x : Reg) (s : State) : EndsAfter (.ldXK x) s (execLdXK x s) := by
  unfold execLdXK
  split
  · exact ⟨_, _, _, _, .register x _ (by simp [registersWritten]), rfl⟩
  · exact ⟨_, _, _, _, .nothing, rfl⟩

theorem storeSequence_endsAfter {i : Instr} (w : Word) (bytes : List Byte) (finish : State → State) {s : State}
    (written : Writes i s (finish (storeFrom s.i 0 bytes s))) : EndsAfter i s (storeSequence w bytes finish s) := by
  obtain ⟨a, -, h⟩ | ⟨-, h⟩ := storeSequence_cases w bytes finish s
  · exact ⟨_, _, _, _, .nothing, h⟩
  · exact ⟨_, _, _, _, written, h⟩

theorem exec_endsAfter : ∀ (i : Instr) (s : State), EndsAfter i s (exec i s)
  | .ret, s => execRet_endsAfter s
  | .call nnn, s => execCall_endsAfter nnn s
  | .ldXK x, s => execLdXK_endsAfter x s
  | .ldBX x, _ => storeSequence_endsAfter _ _ id (.digits x rfl)
  | .ldMemX x, _ => storeSequence_endsAfter _ _ _ (.store x rfl)
  | .ldXMem x, _ => ⟨_, _, _, _, .load x rfl, rfl⟩
  | .sys _, _ | .jp _, _ | .jpV0 _, _ | .seImm .., _ | .sneImm .., _ | .seReg .., _ | .sneReg .., _ | .skp _, _
  | .sknp _, _ => ⟨_, _, _, _, .nothing, rfl⟩
  | .ldImm x _, _ | .addImm x _, _ | .ldReg x _, _ | .orReg x _, _ | .andReg x _, _ | .xorReg x _, _ | .ldXDt x, _ =>
    ⟨_, _, _, _, .register x _ (by simp [registersWritten]), rfl⟩
  | .rnd x _, _ => ⟨_, _, _, _, .random x _ (by simp [registersWritten]), rfl⟩
  | .addReg x _, _ | .sub x _, _ | .shr x _, _ | .subn x _, _ | .shl x _, _ =>
    ⟨_, _, _, _, .flagged x _ _ (by simp [registersWritten]) (by simp [registersWritten]), rfl⟩
  | .ldI nnn, _ => ⟨_, _, _, _, .index _ (.inl ⟨nnn, rfl⟩), rfl⟩
  | .addIX x, _ => ⟨_, _, _, _, .index _ (.inr ⟨x, .inl rfl⟩), rfl⟩
  | .ldFX x, _ => ⟨_, _, _, _, .index _ (.inr ⟨x, .inr rfl⟩), rfl⟩
  | .ldDtX x, _ => ⟨_, _, _, _, .delay _ ⟨x, rfl⟩, rfl⟩
  | .ldStX x, _ => ⟨_, _, _, _, .sound _ ⟨x, rfl⟩, rfl⟩
  | .cls, _ => ⟨_, _, _, _, .clear rfl, rfl⟩
  | .drw x y n, _ => ⟨_, _, _, _, .draw x y n rfl, rfl⟩

theorem exec_writes {i : Instr} {s t : State} (h : exec i s = .next t) :
    ∃ s' p l u, Writes i s s' ∧ t = { s' with pc := p, halted := l, status := some u } := by
  obtain ⟨s', p, l, u, hw, he⟩ := exec_endsAfter i s
  exact ⟨s', p, l, u, hw, Host.Outcome.next.inj (h.symm.trans he)⟩

/-- A step writes what some instruction may write; where it runs none, it writes nothing. -/
theorem step_endsAfter (s : State) : ∃ i, EndsAfter i s (step s) := by
  obtain ⟨-, h⟩ | ⟨-, i, -, h⟩ | ⟨-, w, -, h⟩ := step_cases s
  · exact ⟨.cls, _, _, _, _, .nothing, h⟩
  · exact ⟨i, h ▸ exec_endsAfter i s⟩
  · exact ⟨.cls, _, _, _, _, .nothing, h⟩

theorem step_writes {s t : State} (h : step s = .next t) :
    ∃ i s' p l u, Writes i s s' ∧ t = { s' with pc := p, halted := l, status := some u } := by
  obtain ⟨i, s', p, l, u, hw, he⟩ := step_endsAfter s
  exact ⟨i, s', p, l, u, hw, Host.Outcome.next.inj (h.symm.trans he)⟩

/-! ### What the writes leave, field by field -/

section
variable {i : Instr} {s s' : State}

theorem Writes.reg_eq (h : Writes i s s') {y : Reg} (hy : y ∉ registersWritten i) : s'.reg y = s.reg y := by
  have hne {x : Reg} (hx : x ∈ registersWritten i) : y ≠ x := by
    rintro rfl
    exact hy hx
  cases h with
  | register x b written => exact reg_setReg_of_ne _ _ (hne written)
  | random x b written => exact reg_setReg_of_ne _ _ (hne written)
  | flagged x b c written flag =>
    exact (reg_setFlag_of_ne _ _ (hne flag)).trans (reg_setReg_of_ne _ _ (hne written))
  | draw x y n who => exact reg_setFlag_of_ne _ _ (hne (by simp [who, registersWritten]))
  | load x who =>
    have hlt : ¬ y ≤ x := by simpa [who, registersWritten] using hy
    rw [reg_congr (bumpIndex_v x _), reg_loadRegs, if_neg hlt]
  | _ => exact reg_congr (by simp) y

theorem Writes.stack_cases (h : Writes i s s') :
    s'.sp = s.sp ∧ s'.stack = s.stack ∨
    (i = .ret ∧ s'.sp.val + 1 = s.sp.val ∧ s'.stack = s.stack) ∨
    ∃ (k : Fin 16) (nnn : Addr), i = .call nnn ∧ s.sp.val = k.val ∧ s'.sp.val = k.val + 1 ∧
      s'.stack = s.stack.set k (advancePc s.pc 2) := by
  cases h with
  | pop k who held => exact .inr (.inl ⟨who, held.symm, rfl⟩)
  | push k nnn who held => exact .inr (.inr ⟨k, nnn, who, held, rfl, rfl⟩)
  | _ => exact .inl (by simp)

theorem Writes.delay_cases (h : Writes i s s') : s'.dt = s.dt ∨ ∃ x, i = .ldDtX x := by
  cases h with
  | delay b who => exact .inr who
  | _ => exact .inl (by simp)

theorem Writes.sound_cases (h : Writes i s s') : s'.st = s.st ∨ ∃ x, i = .ldStX x := by
  cases h with
  | sound b who => exact .inr who
  | _ => exact .inl (by simp)

theorem Writes.fb_cases (h : Writes i s s') :
    s'.fb = s.fb ∨ (i = .cls ∧ s'.fb = clearFramebuffer) ∨ ∃ x y n, i = .drw x y n ∧
      s'.fb = (drawResult x y n s).1 := by
  cases h with
  | clear who => exact .inr (.inl ⟨who, rfl⟩)
  | draw x y n who => exact .inr (.inr ⟨x, y, n, who, rfl⟩)
  | _ => exact .inl (by simp)

theorem Writes.mem_cases (h : Writes i s s') :
    s'.mem = s.mem ∨ (∃ x, i = .ldBX x ∨ i = .ldMemX x) ∧ ∃ bytes, s'.mem = (storeFrom s.i 0 bytes s).mem := by
  cases h with
  | digits x who => exact .inr ⟨⟨x, .inl who⟩, _, rfl⟩
  | store x who => exact .inr ⟨⟨x, .inr who⟩, _, bumpIndex_mem ..⟩
  | _ => exact .inl (by simp)

theorem bumpIndex_i_cases (x : Reg) (s : State) :
    (bumpIndex x s).i = s.i ∨ s.policy.ldstIncrementsI = true ∧ ∃ a, (bumpIndex x s).i = zext16 a := by
  rw [bumpIndex_i]
  split
  · exact .inr ⟨‹_›, _, rfl⟩
  · exact .inl rfl

theorem Writes.index_cases (h : Writes i s s') :
    s'.i = s.i ∨ (∃ a, s'.i = zext16 a) ∧ ((∃ nnn, i = .ldI nnn) ∨ (∃ x, i = .addIX x ∨ i = .ldFX x) ∨
      s.policy.ldstIncrementsI = true ∧ ∃ x, i = .ldMemX x ∨ i = .ldXMem x) := by
  cases h with
  | index a who => exact .inr ⟨⟨a, rfl⟩, or_assoc.1 (.inl who)⟩
  | store x who =>
    obtain hi | ⟨hp, ha⟩ := bumpIndex_i_cases x (storeFrom s.i 0 (s.regsUpTo x) s)
    · exact .inl (hi.trans (storeFrom_i ..))
    · exact .inr ⟨ha, .inr (.inr ⟨by simpa using hp, x, .inl who⟩)⟩
  | load x who =>
    obtain hi | ⟨hp, ha⟩ := bumpIndex_i_cases x (s.loadRegs x)
    · exact .inl (hi.trans (loadRegs_i ..))
    · exact .inr ⟨ha, .inr (.inr ⟨by simpa using hp, x, .inr who⟩)⟩
  | _ => exact .inl (by simp)

theorem Writes.keys_eq (h : Writes i s s') : s'.keys = s.keys := by
  cases h <;> simp

theorem Writes.policy_eq (h : Writes i s s') : s'.policy = s.policy := by
  cases h <;> simp

end

/-- Settles O48, by the registers each kind of write names. -/
theorem onlyNamedInstructionsWriteRegisters : Obligations.OnlyNamedInstructionsWriteRegisters := by
  intro i s t y h hy
  obtain ⟨s', p, l, u, hw, rfl⟩ := exec_writes h
  exact hw.reg_eq hy

/-- Settles O49, part by part. -/
theorem onlyNamedInstructionsChangeOtherState : Obligations.OnlyNamedInstructionsChangeOtherState := by
  intro i s t h
  obtain ⟨s', p, l, u, hw, rfl⟩ := exec_writes h
  refine ⟨fun hne => ?_, fun hne => ?_, fun hne => hw.delay_cases.resolve_left hne,
    fun hne => hw.sound_cases.resolve_left hne, fun hne => ?_, fun hne => (hw.mem_cases.resolve_left hne).1,
    fun hne => (hw.index_cases.resolve_left hne).2, hw.keys_eq, hw.policy_eq⟩
  · obtain ⟨-, hs⟩ | ⟨-, -, hs⟩ | ⟨k, nnn, hi, -⟩ := hw.stack_cases
    · exact absurd hs hne
    · exact absurd hs hne
    · exact ⟨nnn, hi⟩
  · obtain ⟨hs, -⟩ | ⟨hi, hs, -⟩ | ⟨k, nnn, hi, hk, hs, -⟩ := hw.stack_cases
    · exact absurd hs hne
    · exact .inl ⟨hi, hs⟩
    · exact .inr ⟨⟨nnn, hi⟩, hs.trans (by rw [hk])⟩
  · obtain ⟨hi, -⟩ | ⟨x, y, n, hi, -⟩ := hw.fb_cases.resolve_left hne
    · exact .inl hi
    · exact .inr ⟨x, y, n, hi⟩

/-- Settles O50: every write of `I` is of an address zero-extended. -/
theorem writtenIndexIsTwelveBits : Obligations.WrittenIndexIsTwelveBits := by
  intro s t h hne
  obtain ⟨i, s', p, l, u, hw, rfl⟩ := step_writes h
  obtain ⟨⟨a, ha⟩, -⟩ := hw.index_cases.resolve_left hne
  exact ha ▸ toNat_zext16_lt a

/-! ### The font region (R61) -/

theorem writeLands_font {p : FontWritePolicy} {a : Addr} (hp : p ≠ .write) (ha : a.toNat < 0x050) :
    writeLands p a = false := by
  simp [writeLands, isFontAddr, ha, hp]

/-- Unless the policy is `write`, no byte of a sequence lands in the font region. -/
theorem memRead_storeFrom_font {s : State} (hwf : Memory.wf s.mem = true) (hp : s.policy.fontWrite ≠ .write) (b : Word)
    (k : Nat) (vs : List Byte) {a : Addr} (ha : a.toNat < 0x050) : (storeFrom b k vs s).memRead a = s.memRead a := by
  induction vs generalizing k s with
  | nil => rfl
  | cons v vs ih =>
    rw [storeFrom, ih (wf_memWrite hwf ..) (by rwa [memWrite_policy]), memRead_memWrite hwf, if_neg]
    rintro ⟨rfl, hlands⟩
    rw [writeLands_font hp ha] at hlands
    cases hlands

/-- Settles O51: a step that writes memory does so by a sequence of byte writes. -/
theorem fontRegionIsNeverOverwritten : Obligations.FontRegionIsNeverOverwritten := by
  intro s t a hwf hp h ha
  obtain ⟨i, s', p, l, u, hw, rfl⟩ := step_writes h
  obtain hm | ⟨-, bytes, hm⟩ := hw.mem_cases
  · exact memRead_congr hm a
  · exact (memRead_congr hm a).trans (memRead_storeFrom_font hwf hp _ _ _ ha)

end Sys2Proof.Machine
end

section
/-! SUPPORT. The status and the latch that a step leaves (spec/60_exceptions.md R300 to R306), and the invariant, which every
transaction keeps (spec/10_state.md sections 2 to 8). -/

namespace Sys2Proof.Machine

/-! ### Status and latch -/

theorem Status.good_of_fatal {u : Status} (h : u.fatal = true) : u.good = false := by
  cases u <;> simp_all [Status.fatal, Status.good]

/-- An instruction leaves a status, never Halted, and the latch set exactly if it is fatal. -/
theorem exec_status {i : Instr} {s t : State} (hh : s.halted = false) (h : exec i s = .next t) :
    ∃ u, t.status = some u ∧ t.halted = u.fatal ∧ u.good = !u.fatal := by
  have hend : CycleEnd i s (.next t) := h ▸ exec_cycleEnd i s
  cases hend with
  | fallsThrough s' notSkip notTransfer samePc sameLatch => exact ⟨.ok, rfl, sameLatch.trans hh, rfl⟩
  | reports w notSkip notTransfer => exact ⟨.unrecognized w, rfl, hh, rfl⟩
  | skips c skip => exact ⟨.ok, rfl, hh, rfl⟩
  | transfers target s' jumps range sameLatch => exact ⟨.ok, rfl, sameLatch.trans hh, rfl⟩
  | holds x waits noKey => exact ⟨.keyWait, rfl, hh, rfl⟩
  | fails u mayFail fatal origin => exact ⟨u, rfl, fatal.symm, by rw [fatal, Status.good_of_fatal fatal]; rfl⟩

/-- A step leaves a status, good exactly if the latch is clear; it sets the latch exactly with a fatal one. -/
theorem step_status {s t : State} (h : step s = .next t) :
    ∃ u, t.status = some u ∧ t.halted = (s.halted || u.fatal) ∧ u.good = !t.halted := by
  obtain ⟨hh, hs⟩ | ⟨hh, i, -, hs⟩ | ⟨hh, w, -, hs⟩ := step_cases s
  · cases h.symm.trans hs
    exact ⟨.halted, rfl, by simp [hh], by simp [hh, Status.good]⟩
  · obtain ⟨u, hu, hl, hg⟩ := exec_status hh (hs.symm.trans h)
    exact ⟨u, hu, by rw [hl, hh, Bool.false_or], by rw [hl, hg]⟩
  · cases h.symm.trans hs
    exact ⟨.unrecognized w, rfl, by simp [hh, Status.fatal], by simp [hh, Status.good]⟩

/-- Settles O8: whatever a step writes, it ends with a status. -/
theorem everyStepReturnsAStatus : Obligations.EveryStepReturnsAStatus := by
  intro s
  obtain ⟨-, s', p, l, u, -, h⟩ := step_endsAfter s
  exact ⟨_, u, h, rfl⟩

/-- Settles O10, from the status a step leaves. -/
theorem latchSetByFatalStatusOnly : Obligations.LatchSetByFatalStatusOnly := by
  intro s t h
  obtain ⟨u, hu, hl, -⟩ := step_status h
  simp [hu, hl]

/-- Only the fatal end of a cycle leaves a fatal status. -/
theorem exec_fatal {i : Instr} {s t : State} {u : Status} (h : exec i s = .next t) (hu : t.status = some u)
    (hf : u.fatal = true) : t = { s with halted := true, status := some u } ∧ u.origin = some (s.pc, encode i) := by
  have hend : CycleEnd i s (.next t) := h ▸ exec_cycleEnd i s
  cases hend with
  | fails v mayFail fatal origin =>
    obtain rfl := Option.some.inj hu
    exact ⟨rfl, origin⟩
  | _ =>
    obtain rfl := Option.some.inj hu
    cases hf

/-- Settles O9: a fatal status comes from the instruction fetched, whose encoding is the word fetched. -/
theorem fatalStatusIsPrecise : Obligations.FatalStatusIsPrecise := by
  intro s t u h hu hf
  obtain ⟨-, hs⟩ | ⟨hh, i, hd, hs⟩ | ⟨-, w, -, hs⟩ := step_cases s
  · cases h.symm.trans hs
    obtain rfl := Option.some.inj hu
    cases hf
  · obtain ⟨ht, horigin⟩ := exec_fatal (hs.symm.trans h) hu hf
    exact ⟨hh, ht, (encode_of_decode hd).2 ▸ horigin⟩
  · cases h.symm.trans hs
    obtain rfl := Option.some.inj hu
    cases hf

/-- Settles O11: the word a rejection carries is the word fetched. -/
theorem unrecognizedWordIsReported : Obligations.UnrecognizedWordIsReported := by
  intro s w hh hd
  obtain rfl := eq_of_decode_unrecognized hd
  exact ⟨_, (step_of_decode_unrecognized hh hd).trans (reportUnrecognized_eq ..), rfl, rfl,
    (Unchanged.refl {} s).setPc_setStatus ..⟩

/-! ### The invariant -/

theorem toNat_advancePc_lt (pc : Word) (n : Nat) : (advancePc pc n).toNat < 0x1000 := toNat_zext16_lt _

/-- The `pc` part: a fall-through and a skip wrap at 12 bits, a transfer's target is in range, the other ends keep `pc`. -/
theorem exec_pcRange {i : Instr} {s t : State} (hinv : Inv s) (h : exec i s = .next t) : t.pc.toNat < 0x1000 := by
  have hend : CycleEnd i s (.next t) := h ▸ exec_cycleEnd i s
  cases hend with
  | fallsThrough | reports | skips => exact toNat_advancePc_lt ..
  | transfers target s' jumps range => exact range hinv
  | holds | fails => exact hinv.pcRange

theorem step_pcRange {s t : State} (hinv : Inv s) (h : step s = .next t) : t.pc.toNat < 0x1000 := by
  obtain ⟨-, hs⟩ | ⟨-, i, -, hs⟩ | ⟨-, w, -, hs⟩ := step_cases s
  · cases h.symm.trans hs
    exact hinv.pcRange
  · exact exec_pcRange hinv (hs.symm.trans h)
  · cases h.symm.trans hs
    exact toNat_advancePc_lt ..

section
variable {i : Instr} {s s' : State}

/-- The stack part: a pop uncovers no entry, and a push adds a 12-bit address. -/
theorem Writes.stackRange (hw : Writes i s s') (hinv : ∀ k : Fin 16, k.val < s.sp.val → s.stack[k].toNat < 0x1000) :
    ∀ k : Fin 16, k.val < s'.sp.val → s'.stack[k].toNat < 0x1000 := by
  intro k hk
  obtain ⟨hsp, hstack⟩ | ⟨-, hsp, hstack⟩ | ⟨top, -, -, htop, hsp, hstack⟩ := hw.stack_cases
  · rw [hstack]
    exact hinv k (hsp ▸ hk)
  · rw [hstack]
    exact hinv k (by omega)
  · simp only [hstack, Fin.getElem_fin, Vector.getElem_set]
    split
    · exact toNat_advancePc_lt ..
    · exact hinv k (by omega)

theorem Writes.memWf (hw : Writes i s s') (hinv : Memory.wf s.mem = true) : Memory.wf s'.mem = true := by
  obtain hm | ⟨-, bytes, hm⟩ := hw.mem_cases
  · rwa [hm]
  · rw [hm]
    exact wf_storeFrom hinv ..

theorem pixelUpdate_binary {p : Byte} (hp : p = 0 ∨ p = 1) (b : Bool) :
    (pixelUpdate p b).1 = 0 ∨ (pixelUpdate p b).1 = 1 := by
  obtain rfl | rfl := hp <;> cases b <;> decide

theorem drawResult_binary (x y : Reg) (n : RowCount) {s : State} (h : ∀ py px, s.pixel py px = 0 ∨ s.pixel py px = 1)
    (py : Row) (px : Column) :
    pixelOf (drawResult x y n s).1 py px = 0 ∨ pixelOf (drawResult x y n s).1 py px = 1 := by
  by_cases haddr : ∃ r c, r < n.val ∧ c < 8 ∧ py = spriteLine (s.reg y) r ∧ px = spriteColumn (s.reg x) c
  · obtain ⟨r, c, hr, hc, rfl, rfl⟩ := haddr
    rw [drawResult_at x y n s hr hc]
    exact pixelUpdate_binary (h _ _) _
  · rw [drawResult_other x y n s fun r c hr hc he => haddr ⟨r, c, hr, hc, he⟩]
    exact h py px

/-- The framebuffer part: a clear leaves 0, and the pixel update keeps 0 and 1. -/
theorem Writes.pixels (hw : Writes i s s') (hinv : ∀ py px, s.pixel py px = 0 ∨ s.pixel py px = 1) (py : Row)
    (px : Column) : s'.pixel py px = 0 ∨ s'.pixel py px = 1 := by
  obtain hfb | ⟨-, hfb⟩ | ⟨x, y, n, -, hfb⟩ := hw.fb_cases
  · rw [pixel_congr hfb]
    exact hinv py px
  · rw [State.pixel, hfb]
    exact .inl (pixelOf_clear py px)
  · rw [State.pixel, hfb]
    exact drawResult_binary x y n hinv py px

end

theorem step_latch {s t : State} (h : step s = .next t) :
    t.halted = true ↔ ∃ u, t.status = some u ∧ u.good = false := by
  obtain ⟨u, hu, -, hg⟩ := step_status h
  simp [hu, hg]

theorem step_keeps_inv {s t : State} (hinv : Inv s) (h : step s = .next t) : Inv t := by
  have hpc := step_pcRange hinv h
  have hlatch := step_latch h
  obtain ⟨i, s', p, l, u, hw, rfl⟩ := step_writes h
  exact {
    pcRange := hpc
    stackRange := hw.stackRange hinv.stackRange
    memWf := hw.memWf hinv.memWf
    pixels := hw.pixels hinv.pixels
    latch := hlatch }

/-- Settles O46, field by field. -/
theorem everyStepKeepsTheInvariant : Obligations.EveryStepKeepsTheInvariant := fun _ _ => step_keeps_inv

theorem inv_resetWith (p : LaunchParams) : Inv (State.resetWith p) where
  pcRange := by show (0x200#16).toNat < 0x1000; decide
  stackRange k hk := absurd hk (Nat.not_lt_zero _)
  memWf := wf_resetWith p
  pixels py px := .inl (pixelOf_clear py px)
  latch := ⟨nofun, nofun⟩

/-- Settles O45: reset is the launch with the defaults. -/
theorem invariantHoldsAtReset : Obligations.InvariantHoldsAtReset := by
  unfold Obligations.InvariantHoldsAtReset
  rw [reset_eq_resetWith]
  exact inv_resetWith {}

/-- What a load can do (R361). -/
theorem load_eq_next {s t : State} {a : Addr} {b : Byte} (h : s.load a b = .next t) : t = s.poke a b := by
  unfold State.load at h
  split at h
  · cases h
  split at h
  · cases h
  · exact (Host.Outcome.next.inj h).symm

theorem transact_keeps_inv {a : Transaction} {s t : State} (hinv : Inv s) (h : transact a s = .next t) : Inv t := by
  cases a with
  | reset p =>
    cases h
    exact { inv_resetWith p with }
  | load a b =>
    obtain rfl := load_eq_next h
    exact { hinv with memWf := wf_poke hinv.memWf a b }
  | setKeys k =>
    cases h
    exact { hinv with }
  | timerTick =>
    cases h
    exact { hinv with }
  | step => exact step_keeps_inv hinv h
  | read =>
    cases h
    exact hinv

theorem Reachable.inv {s : State} (h : Reachable s) : Inv s := by
  induction h with
  | launch p => exact inv_resetWith p
  | next a _ ht ih => exact transact_keeps_inv ih ht

/-- Settles O47: launches, transactions, and so by induction every reachable state. -/
theorem everyReachableStateHasTheInvariant : Obligations.EveryReachableStateHasTheInvariant :=
  ⟨inv_resetWith, fun _ _ _ => transact_keeps_inv, fun _ => Reachable.inv⟩

end Sys2Proof.Machine
end

section
/-! SUPPORT. Instructions that write `pc` and the stack, a register or `I` (spec/40_control_flow.md, spec/41_register_alu.md,
spec/42_index_memory.md), and the fetch of a word (spec/20_memory.md R55). -/

namespace Sys2Proof.Machine

/-! ### Fetch and advance -/

theorem addrAt_eq_ofNat (p : Word) (k : Nat) : addrAt p k = BitVec.ofNat 12 (p.toNat + k) :=
  BitVec.eq_of_toNat_eq (by rw [toNat_addrAt, BitVec.toNat_ofNat])

theorem toNat_fetch (s : State) (p : Word) :
    (s.fetch p).toNat = (s.memRead (addrAt p 0)).toNat * 256 + (s.memRead (addrAt p 1)).toNat :=
  toNat_wordOfBytes ..

/-- Settles O7: the word of two bytes, each address wrapped. -/
theorem fetchIsBigEndian : Obligations.FetchIsBigEndian := by
  intro s p
  rw [toNat_fetch, addrAt_eq_ofNat, addrAt_eq_ofNat, Nat.add_zero]

/-- Settles O14: 6XNN falls through, and 3XNN skips where its condition holds. -/
theorem advancesWrapAtTwelveBits : Obligations.AdvancesWrapAtTwelveBits := by
  intro x nn s
  rw [exec_ldImm, exec_seImm]
  constructor
  · obtain ⟨t, ht, -, hfell⟩ := fallThrough_setReg s x nn
    exact ⟨t, ht, hfell.pc ▸ toNat_advancePc s.pc 2⟩
  · intro hx
    obtain ⟨t, ht, hskip⟩ := skipIf_skipped (c := s.reg x = nn) decide_eq_true_iff s
    exact ⟨t, ht, hskip.taken hx ▸ toNat_advancePc s.pc 4⟩

/-! ### Return, call and JP V0 (R101, R103, R104) -/

/-- A stack in the footprint may be written. -/
theorem Unchanged.setStack {f : Footprint} {s s' : State} (h : Unchanged f s s') (hf : f.stack = true) (sp : Fin 17)
    (stack : Vector Word 16) : Unchanged f s { s' with sp := sp, stack := stack } :=
  { h with stack := fun hkept => absurd (hf.symm.trans hkept) (by decide) }

theorem exec_ret (s : State) : exec .ret s = execRet s := rfl

theorem exec_call (nnn : Addr) (s : State) : exec (.call nnn) s = execCall nnn s := rfl

theorem exec_jpV0 (nnn : Addr) (s : State) : exec (.jpV0 nnn) s = transfer (jumpV0Target nnn (s.reg 0)) s := rfl

/-- RET with entry `k` on top goes to it. -/
theorem exec_ret_entry {s : State} {k : Fin 16} (h : s.sp.val = k.val + 1) :
    ∃ t, exec .ret s = .next t ∧ t.status = some .ok ∧ t.pc = s.stack[k] ∧ t.sp.val = k.val ∧ t.stack = s.stack ∧
      Unchanged { stack := true } s t :=
  ⟨_, (exec_ret s).trans ((execRet_entry k h).trans (transfer_eq ..)), rfl, rfl, rfl, rfl,
    ((Unchanged.refl _ s).setStack rfl ⟨k.val, by omega⟩ s.stack).setPc_setStatus ..⟩

/-- CALL with `k` entries held leaves the address after it in entry `k`. -/
theorem exec_call_room {nnn : Addr} {s : State} {k : Fin 16} (h : s.sp.val = k.val) :
    ∃ t, exec (.call nnn) s = .next t ∧ t.status = some .ok ∧ t.pc.toNat = nnn.toNat ∧ t.sp.val = k.val + 1 ∧
      t.stack[k].toNat = (s.pc.toNat + 2) % 0x1000 ∧ (∀ j : Fin 16, j ≠ k → t.stack[j] = s.stack[j]) ∧
      Unchanged { stack := true } s t := by
  refine ⟨_, (exec_call nnn s).trans ((execCall_room k h).trans (transfer_eq ..)), rfl, toNat_zext16 nnn, rfl, ?_, ?_,
    ((Unchanged.refl _ s).setStack rfl ⟨k.val + 1, by omega⟩ _).setPc_setStatus ..⟩
  · simp [toNat_advancePc]
  · intro j hj
    have hne : k.val ≠ j.val := fun e => hj (Fin.ext e.symm)
    simp [Vector.getElem_set_ne, hne]

/-- Settles O15, case by case. -/
theorem returnPopsTheStack : Obligations.ReturnPopsTheStack := fun s =>
  ⟨fun h => (exec_ret s).trans (execRet_empty h), fun _ => exec_ret_entry⟩

/-- Settles O17, case by case. -/
theorem callPushesTheReturnAddress : Obligations.CallPushesTheReturnAddress := fun nnn s =>
  ⟨fun h => (exec_call nnn s).trans (execCall_full h), fun _ => exec_call_room⟩

/-- Settles O20: the return pops the entry that the call pushed. -/
theorem callThenReturnComesBack : Obligations.CallThenReturnComesBack := by
  intro nnn s hlt
  obtain ⟨t, ht, -, -, htsp, htop, hkept, -⟩ := exec_call_room (nnn := nnn) (k := ⟨s.sp.val, hlt⟩) rfl
  refine ⟨t, ht, fun u husp hu => ?_⟩
  obtain ⟨r, hr, -, hrpc, hrsp, hrstack, -⟩ := exec_ret_entry (k := ⟨s.sp.val, hlt⟩) (husp ▸ htsp)
  refine ⟨r, hr, ?_, Fin.ext hrsp, fun k hk => ?_⟩
  · rw [hrpc, hu _ (by rw [htsp]; exact Nat.lt_succ_self _), htop]
  · rw [hrstack, hu k (by rw [htsp]; exact Nat.lt_succ_of_lt hk)]
    exact hkept k (Fin.ne_of_lt hk)

theorem toNat_jumpV0Target (nnn : Addr) (b : Byte) : (jumpV0Target nnn b).toNat = (nnn.toNat + b.toNat) % 0x1000 := by
  simp only [jumpV0Target, toNat_zext16, a12, BitVec.toNat_setWidth, BitVec.toNat_add]
  omega

/-- Settles O18: a transfer to the wrapped sum. -/
theorem jumpPlusV0Wraps : Obligations.JumpPlusV0Wraps := fun nnn s =>
  ⟨_, (exec_jpV0 nnn s).trans (transfer_eq ..), setStatus_status .., toNat_jumpV0Target nnn (s.reg 0),
    (Unchanged.refl {} s).setPc_setStatus ..⟩

/-! ### The random byte (R146) -/

theorem exec_rnd (x : Reg) (nn : Byte) (s : State) :
    exec (.rnd x nn) s = fallThrough (s.takeDraw.setReg x (s.nextDraw &&& nn)) := rfl

/-- A draw counter in the footprint may be written. -/
theorem Unchanged.takeDraw {f : Footprint} {s s' : State} (h : Unchanged f s s') (hf : f.draws = true) :
    Unchanged f s s'.takeDraw :=
  { h with draws := fun hkept => absurd (hf.symm.trans hkept) (by decide) }

/-- Settles O22: the masked draw is written, and the draw counted. -/
theorem randomByteIsMasked : Obligations.RandomByteIsMasked := by
  intro x nn s
  have hframe : Unchanged { regs := [x], draws := true } s (s.takeDraw.setReg x (s.nextDraw &&& nn)) :=
    ((Unchanged.refl _ s).takeDraw rfl).setReg (by simp) _
  refine ⟨_, (exec_rnd x nn s).trans (fallThrough_eq _), reg_setReg_self .., fun b hb hclear => ?_, rfl,
    .of_unchanged hframe rfl⟩
  rw [reg_setStatus, reg_setPc, reg_setReg_self, BitVec.getLsbD_and, hclear, Bool.and_false]

/-! ### Sums into `I` (R181, R182) -/

theorem exec_addIX (x : Reg) (s : State) : exec (.addIX x) s = fallThrough (s.setIndex (indexPlus s.i (s.reg x))) := rfl

theorem exec_ldFX (x : Reg) (s : State) : exec (.ldFX x) s = fallThrough (s.setIndex (glyphAddr (s.reg x))) := rfl

theorem toNat_indexPlus (i : Word) (b : Byte) : (indexPlus i b).toNat = (i.toNat + b.toNat) % 0x1000 := by
  rw [indexPlus, toNat_zext16, toNat_addrAt]

/-- Five times a byte needs no wrap. -/
theorem toNat_glyphAddr (b : Byte) : (glyphAddr b).toNat = b.toNat * 5 := by
  have hb := b.isLt
  rw [glyphAddr, toNat_zext16, toNat_addrAt, show (0x000 : Word).toNat = 0 from rfl]
  omega

/-- Settles O28: only `I` is written. -/
theorem addToIndexWrapsWithoutFlag : Obligations.AddToIndexWrapsWithoutFlag := by
  intro x s
  rw [exec_addIX]
  obtain ⟨t, ht, hi, hfell⟩ := fallThrough_setIndex s (indexPlus s.i (s.reg x))
  exact ⟨t, ht, by rw [hi, toNat_indexPlus], hfell⟩

/-- Settles O29: only `I` is written. -/
theorem glyphAddressIsFiveTimesTheRegister : Obligations.GlyphAddressIsFiveTimesTheRegister := by
  intro x s
  rw [exec_ldFX]
  obtain ⟨t, ht, hi, hfell⟩ := fallThrough_setIndex s (glyphAddr (s.reg x))
  exact ⟨t, ht, by rw [hi, toNat_glyphAddr], hfell⟩

end Sys2Proof.Machine
end

section
/-! SUPPORT. The keys (spec/44_keys_timers.md R230 to R234) and FX0A's hold (spec/60_exceptions.md R318). -/

namespace Sys2Proof.Machine

theorem pressed_eq_false_iff {s : State} {k : Key} : s.pressed k = false ↔ s.keys[k] = 0 := by
  simp [State.pressed]

theorem pressed_eq_true_iff {s : State} {k : Key} : s.pressed k = true ↔ s.keys[k] ≠ 0 := by
  simp [State.pressed]

theorem pressed_congr {s t : State} (h : t.keys = s.keys) (k : Key) : t.pressed k = s.pressed k := by
  simp [State.pressed, h]

/-! ### Key skips (R230 to R232) -/

theorem exec_skp (x : Reg) (s : State) : exec (.skp x) s = skipIf (s.pressed (keyIndex (s.reg x))) s := rfl

theorem exec_sknp (x : Reg) (s : State) : exec (.sknp x) s = skipIf (!s.pressed (keyIndex (s.reg x))) s := rfl

/-- The mask of the key index takes the low nibble. -/
theorem val_keyIndex (b : Byte) : (keyIndex b).val = b.toNat % 16 := by
  have hmask : b.toNat &&& 0x0F = b.toNat % 2 ^ 4 := Nat.and_two_pow_sub_one_eq_mod _ 4
  simp [keyIndex, hmask]

/-- Settles O41: both are `skipIf` on the key's byte. -/
theorem keySkipsFollowTheKey : Obligations.KeySkipsFollowTheKey := by
  intro x k s hk
  obtain rfl : k = keyIndex (s.reg x) := Fin.ext (hk.trans (val_keyIndex _).symm)
  rw [exec_skp, exec_sknp]
  exact ⟨skipIf_skipped pressed_eq_true_iff s, skipIf_skipped (by rw [Bool.not_eq_true', pressed_eq_false_iff]) s⟩

/-! ### FX0A (R234) -/

theorem exec_ldXK_key {x : Reg} {s : State} {k : Key} (h : s.leastPressed = some k) :
    exec (.ldXK x) s = fallThrough (s.setReg x (BitVec.ofNat 8 k.val)) := by
  simp [exec, execLdXK, h]

theorem exec_ldXK_hold {x : Reg} {s : State} (h : ∀ k, s.pressed k = false) : exec (.ldXK x) s = holdForKey s := by
  simp [exec, execLdXK, leastPressed_eq_none.2 h]

/-- A pressed key below which none is pressed is the one FX0A finds. -/
theorem leastPressed_of_least {s : State} {k : Key} (hk : s.pressed k = true)
    (hleast : ∀ j, j < k → s.pressed j = false) : s.leastPressed = some k := by
  cases h : s.leastPressed with
  | none => simp [leastPressed_eq_none.1 h k] at hk
  | some l =>
    obtain ⟨hl, hleast'⟩ := leastPressed_eq_some h
    have hlk : ¬ l < k := fun hlt => by simp [hleast l hlt] at hl
    have hkl : ¬ k < l := fun hlt => by simp [hleast' k hlt] at hk
    rw [Fin.le_antisymm (Fin.not_lt.1 hkl) (Fin.not_lt.1 hlk)]

/-- Settles O43: the least pressed key is unique. -/
theorem keyWaitTakesTheLeastKeyOrHolds : Obligations.KeyWaitTakesTheLeastKeyOrHolds := by
  refine fun x s => ⟨fun k hk hleast => ?_, fun hnone => ?_⟩
  · rw [exec_ldXK_key (leastPressed_of_least (pressed_eq_true_iff.2 hk) fun j hj => pressed_eq_false_iff.2 (hleast j hj))]
    obtain ⟨t, ht, hx, hfell⟩ := fallThrough_setReg s x (BitVec.ofNat 8 k.val)
    refine ⟨t, ht, ?_, hfell⟩
    rw [hx, BitVec.toNat_ofNat]
    omega
  · exact exec_ldXK_hold fun k => pressed_eq_false_iff.2 (hnone k)

/-- Only FX0A without a key ends with KeyWait. -/
theorem exec_keyWait {i : Instr} {s t : State} (h : exec i s = .next t) (hu : t.status = some .keyWait) :
    (∃ x, i = .ldXK x) ∧ (∀ k, s.pressed k = false) ∧ t = s.setStatus .keyWait := by
  have hend : CycleEnd i s (.next t) := h ▸ exec_cycleEnd i s
  cases hend with
  | holds x waits noKey => exact ⟨⟨x, waits⟩, noKey, rfl⟩
  | fails u mayFail fatal =>
    obtain rfl := Option.some.inj hu
    cases fatal
  | _ => simp at hu

/-- Settles O44: the state held has the same `pc`, memory and keys, so the next step holds again. -/
theorem keyWaitIsRepeated : Obligations.KeyWaitIsRepeated := by
  intro s t h hu
  obtain ⟨-, hs⟩ | ⟨hh, i, hd, hs⟩ | ⟨-, w, -, hs⟩ := step_cases s
  · cases h.symm.trans hs
    cases hu
  · obtain ⟨⟨x, rfl⟩, hnone, rfl⟩ := exec_keyWait (hs.symm.trans h) hu
    refine ⟨?_, rfl, fun k => pressed_eq_false_iff.1 (hnone k)⟩
    have hd' : decode ((s.setStatus .keyWait).fetch (s.setStatus .keyWait).pc) = .instr (.ldXK x) := by
      rw [setStatus_pc, fetch_congr (setStatus_mem s .keyWait), hd]
    have hnone' (k : Key) : (s.setStatus .keyWait).pressed k = false := (pressed_congr (setStatus_keys ..) k).trans (hnone k)
    rw [step_of_decode_instr ((setStatus_halted ..).trans hh) hd', exec_ldXK_hold hnone']
    rfl
  · cases h.symm.trans hs
    cases hu

end Sys2Proof.Machine
end

section
/-! SUPPORT. The sequences of bytes at `I` (spec/42_index_memory.md FX33, FX55, FX65 and the family's laws; spec/20_memory.md
sections 4 and 5). -/

namespace Sys2Proof.Machine

/-! ### Stores: when they are fatal, what they leave -/

theorem exec_ldBX (x : Reg) (s : State) :
    exec (.ldBX x) s = storeSequence (encode (.ldBX x)) (bcdDigits (s.reg x)) id s := rfl

theorem exec_ldMemX (x : Reg) (s : State) :
    exec (.ldMemX x) s = storeSequence (encode (.ldMemX x)) (s.regsUpTo x) (bumpIndex x) s := rfl

theorem isFontAddr_eq_true {a : Addr} : isFontAddr a = true ↔ a.toNat < 0x050 := decide_eq_true_iff

theorem isFontAddr_eq_false {a : Addr} : isFontAddr a = false ↔ 0x050 ≤ a.toNat := by
  rw [isFontAddr, decide_eq_false_iff_not, Nat.not_lt]

theorem fontViolation_eq_none {s : State} {n : Nat}
    (h : s.policy.fontWrite = .fault → ∀ k, k < n → 0x050 ≤ (addrAt s.i k).toNat) : fontViolation s n = none := by
  unfold fontViolation
  split
  · exact (firstFontAddr_eq_none ..).2 fun k hk => isFontAddr_eq_false.2 (h ‹_› k hk)
  · rfl

/-- Under the policy `fault`, a sequence of at most 16 bytes that meets the font region violates it at its lowest address
there. -/
theorem fontViolation_lowest {s : State} {n : Nat} (hn : n ≤ 16) (hp : s.policy.fontWrite = .fault)
    (h : ∃ k, k < n ∧ (addrAt s.i k).toNat < 0x050) :
    ∃ a, fontViolation s n = some a ∧ (∃ k, k < n ∧ a = addrAt s.i k) ∧ a.toNat < 0x050 ∧
      ∀ k, k < n → a.toNat ≤ (addrAt s.i k).toNat := by
  rw [fontViolation, if_pos hp]
  cases hfirst : firstFontAddr s.i n with
  | none =>
    obtain ⟨k, hk, hfont⟩ := h
    have hnot := isFontAddr_eq_false.1 ((firstFontAddr_eq_none ..).1 hfirst k hk)
    omega
  | some a =>
    obtain ⟨hfont, hmem⟩ := firstFontAddr_eq_some hfirst
    exact ⟨a, rfl, hmem, isFontAddr_eq_true.1 hfont, fun k => firstFontAddr_lowest hn hfirst⟩

theorem storeSequence_fatal {w : Word} {bytes : List Byte} {finish : State → State} {s : State} {a : Addr}
    (h : fontViolation s bytes.length = some a) :
    storeSequence w bytes finish s = raiseFatal (.fontRegionWrite s.pc w a) s := by
  rw [storeSequence, h]

theorem storeSequence_done {w : Word} {bytes : List Byte} {finish : State → State} {s : State}
    (h : fontViolation s bytes.length = none) :
    storeSequence w bytes finish s = fallThrough (finish (storeFrom s.i 0 bytes s)) := by
  rw [storeSequence, h]

/-- Settles O30: both are `storeSequence`, of 3 and of X + 1 bytes. -/
theorem fontRegionWriteIsFatal : Obligations.FontRegionWriteIsFatal := by
  rintro i n s hi hp hmeets
  have hn : n ≤ 16 := by
    obtain ⟨x, -, rfl⟩ | ⟨x, -, rfl⟩ := hi <;> omega
  obtain ⟨a, ha, hmem, hfont, hlowest⟩ := fontViolation_lowest hn hp hmeets
  refine ⟨a, ?_, hmem, hfont, fun k hk _ => hlowest k hk⟩
  obtain ⟨x, rfl, rfl⟩ | ⟨x, rfl, rfl⟩ := hi
  · exact (exec_ldBX x s).trans (storeSequence_fatal ha)
  · exact (exec_ldMemX x s).trans (storeSequence_fatal (by rwa [regsUpTo_length]))

theorem writeLands_of {p : FontWritePolicy} {a : Addr} (h : 0x050 ≤ a.toNat ∨ p = .write) : writeLands p a = true := by
  obtain h | rfl := h
  · simp [writeLands, isFontAddr_eq_false.2 h]
  · simp [writeLands]

/-- Where a byte of the sequence lands, it is read back. -/
theorem memRead_storeFrom_landed {s : State} (hwf : Memory.wf s.mem = true) {bytes : List Byte}
    (hlen : bytes.length ≤ 16) {k : Nat} (hk : k < bytes.length)
    (hlands : 0x050 ≤ (addrAt s.i k).toNat ∨ s.policy.fontWrite = .write) :
    (storeFrom s.i 0 bytes s).memRead (addrAt s.i k) = bytes[k] := by
  have hread := memRead_storeFrom hwf s.i 0 bytes hk (by omega)
  rwa [Nat.zero_add, writeLands_of hlands, if_pos rfl] at hread

/-- Where a byte is dropped, its address reads as before. -/
theorem memRead_storeFrom_dropped {s : State} (hwf : Memory.wf s.mem = true) (bytes : List Byte) {a : Addr}
    (hfont : a.toNat < 0x050) (hp : s.policy.fontWrite = .drop) : (storeFrom s.i 0 bytes s).memRead a = s.memRead a :=
  memRead_storeFrom_font hwf (by simp [hp]) _ _ _ hfont

/-- A sequence of bytes writes its addresses alone. -/
theorem Unchanged.storeFrom {s : State} (hwf : Memory.wf s.mem = true) {bytes : List Byte} {f : Footprint}
    (hf : ∀ k, k < bytes.length → addrAt s.i k ∈ f.memory) : Unchanged f s (storeFrom s.i 0 bytes s) where
  regs y _ := reg_congr (storeFrom_v ..) y
  index _ := storeFrom_i ..
  stack _ := ⟨storeFrom_sp .., storeFrom_stack ..⟩
  delay _ := storeFrom_dt ..
  sound _ := storeFrom_st ..
  memory a ha := memRead_storeFrom_of_ne hwf _ _ _ fun k hk e => ha (by rw [e, Nat.zero_add]; exact hf k hk)
  display _ := pixel_congr (storeFrom_fb ..)
  draws _ := storeFrom_draws ..
  keys := storeFrom_keys ..
  halted := storeFrom_halted ..
  policy := storeFrom_policy ..

theorem addrAt_mem_range (b : Word) {k n : Nat} (hk : k < n) : addrAt b k ∈ (List.range n).map (addrAt b) :=
  List.mem_map.2 ⟨k, List.mem_range.2 hk, rfl⟩

/-- A fall-through after writes that kept `pc` and a frame, and what its state reads. -/
theorem fallThrough_of_unchanged {f : Footprint} {s s' : State} (h : Unchanged f s s') (hpc : s'.pc = s.pc) :
    ∃ t, fallThrough s' = .next t ∧ t.reg = s'.reg ∧ t.memRead = s'.memRead ∧ t.i = s'.i ∧ FellThrough f s t :=
  ⟨_, fallThrough_eq s', rfl, rfl, rfl, .of_unchanged h hpc⟩

/-! ### FX33 (R183, R186) -/

theorem toNat_bcdDigits (b : Byte) {k : Nat} (hk : k < (bcdDigits b).length) :
    (bcdDigits b)[k].toNat = b.toNat / 10 ^ (2 - k) % 10 := by
  have hb := b.isLt
  rw [bcdDigits_length] at hk
  obtain rfl | rfl | rfl : k = 0 ∨ k = 1 ∨ k = 2 := by omega
  all_goals
    simp [bcdDigits]
    omega

/-- Settles O31: the three digits are one sequence of bytes. -/
theorem bcdStoreWritesThreeDigits : Obligations.BcdStoreWritesThreeDigits := by
  intro x s hwf hsafe
  rw [exec_ldBX, storeSequence_done (fontViolation_eq_none hsafe), id]
  have hframe : Unchanged { memory := (List.range 3).map (addrAt s.i) } s (storeFrom s.i 0 (bcdDigits (s.reg x)) s) :=
    .storeFrom hwf fun _ => addrAt_mem_range s.i
  obtain ⟨t, ht, -, hmem, -, hfell⟩ := fallThrough_of_unchanged hframe (storeFrom_pc ..)
  refine ⟨t, ht, fun k hk hlands => ?_, fun k hk hfont hp => ?_, hfell⟩
  · have hlt : k < (bcdDigits (s.reg x)).length := by rwa [bcdDigits_length]
    rw [hmem, memRead_storeFrom_landed hwf (by simp) hlt hlands, toNat_bcdDigits]
  · rw [hmem, memRead_storeFrom_dropped hwf _ hfont hp]

/-- Settles O34: the digits of a number below 1000 spell it. -/
theorem bcdDigitsSpellTheRegister : Obligations.BcdDigitsSpellTheRegister := by
  intro x s hwf hsafe
  obtain ⟨t, ht, hdigits, -⟩ := bcdStoreWritesThreeDigits x s hwf fun _ => hsafe
  have hb := (s.reg x).isLt
  have hdigit (k : Nat) (hk : k < 3) := hdigits k hk (.inl (hsafe k hk))
  refine ⟨t, ht, ?_⟩
  rw [hdigit 0 (by decide), hdigit 1 (by decide), hdigit 2 (by decide)]
  omega

/-! ### FX55 and FX65 (R184, R185) -/

theorem Unchanged.bumpIndex {f : Footprint} {s s' : State} (h : Unchanged f s s')
    (hf : s.policy.ldstIncrementsI = true → f.index = true) (x : Reg) : Unchanged f s (bumpIndex x s') := by
  unfold Machine.bumpIndex
  split
  · next hp => exact h.setIndex (hf (h.policy ▸ hp)) _
  · exact h

theorem toNat_bumpIndex_i {x : Reg} {s : State} (hp : s.policy.ldstIncrementsI = true) :
    (bumpIndex x s).i.toNat = (s.i.toNat + x.val + 1) % 0x1000 := by
  rw [bumpIndex_i, if_pos hp, toNat_zext16, toNat_addrAt, Nat.add_assoc]

/-- Settles O32: the registers are one sequence of bytes, then `I` is moved. -/
theorem bulkStoreWritesRegisters : Obligations.BulkStoreWritesRegisters := by
  intro x s hwf hsafe
  have hdone : fontViolation s (s.regsUpTo x).length = none :=
    fontViolation_eq_none fun hp k hk => hsafe hp k (by rw [regsUpTo_length] at hk; omega)
  have hframe : Unchanged { memory := (List.range (x.val + 1)).map (addrAt s.i), index := s.policy.ldstIncrementsI } s
      (bumpIndex x (storeFrom s.i 0 (s.regsUpTo x) s)) :=
    (Unchanged.storeFrom hwf fun k hk => addrAt_mem_range s.i (by rwa [regsUpTo_length] at hk)).bumpIndex id x
  rw [exec_ldMemX, storeSequence_done hdone]
  obtain ⟨t, ht, -, hmem, hi, hfell⟩ := fallThrough_of_unchanged hframe (by simp)
  refine ⟨t, ht, fun k hk hlands => ?_, fun k hk hfont hp => ?_, fun hp => ?_, hfell⟩
  · have hlt : k.val < (s.regsUpTo x).length := by rw [regsUpTo_length]; exact Nat.lt_succ_of_le hk
    rw [hmem, memRead_congr (bumpIndex_mem ..), memRead_storeFrom_landed hwf (by rw [regsUpTo_length]; omega) hlt hlands,
      getElem_regsUpTo]
  · rw [hmem, memRead_congr (bumpIndex_mem ..), memRead_storeFrom_dropped hwf _ hfont hp]
  · rw [hi, toNat_bumpIndex_i (by rwa [storeFrom_policy]), storeFrom_i]

theorem exec_ldXMem (x : Reg) (s : State) : exec (.ldXMem x) s = fallThrough (bumpIndex x (s.loadRegs x)) := rfl

/-- The registers loaded are in the footprint. -/
theorem Unchanged.loadRegs {f : Footprint} (s : State) {x : Reg} (hf : ∀ y, y ≤ x → y ∈ f.regs) :
    Unchanged f s (s.loadRegs x) where
  regs y hy := by rw [reg_loadRegs, if_neg fun hle => hy (hf y hle)]
  index _ := loadRegs_i ..
  stack _ := ⟨loadRegs_sp .., loadRegs_stack ..⟩
  delay _ := loadRegs_dt ..
  sound _ := loadRegs_st ..
  memory _ _ := memRead_loadRegs ..
  display _ _ _ := pixel_loadRegs ..
  draws _ := loadRegs_draws ..
  keys := loadRegs_keys ..
  halted := loadRegs_halted ..
  policy := loadRegs_policy ..

/-- Settles O33: the registers up to VX are loaded, then `I` is moved. -/
theorem bulkLoadReadsRegisters : Obligations.BulkLoadReadsRegisters := by
  intro x s
  have hframe : Unchanged { regs := (List.finRange 16).filter (· ≤ x), index := s.policy.ldstIncrementsI } s
      (bumpIndex x (s.loadRegs x)) :=
    (Unchanged.loadRegs s fun y hy => by simpa using hy).bumpIndex id x
  rw [exec_ldXMem]
  obtain ⟨t, ht, hreg, -, hi, hfell⟩ := fallThrough_of_unchanged hframe (by simp)
  refine ⟨t, ht, fun k hk => ?_, fun hp => ?_, hfell⟩
  · rw [hreg, reg_congr (bumpIndex_v ..), reg_loadRegs, if_pos hk]
  · rw [hi, toNat_bumpIndex_i (by rwa [loadRegs_policy]), loadRegs_i]

/-! ### Laws of stores (R187, R65) -/

/-- Outside the font region FX55 leaves V0 to VX in memory. -/
theorem exec_ldMemX_stores {x : Reg} {s : State} (hwf : Memory.wf s.mem = true)
    (hsafe : ∀ k, k ≤ x.val → 0x050 ≤ (addrAt s.i k).toNat) :
    ∃ t, exec (.ldMemX x) s = .next t ∧ ∀ k : Reg, k ≤ x → t.memRead (addrAt s.i k.val) = s.reg k := by
  obtain ⟨t, ht, hstored, -⟩ := bulkStoreWritesRegisters x s hwf fun _ => hsafe
  exact ⟨t, ht, fun k hk => hstored k hk (.inl (hsafe k hk))⟩

/-- Settles O35: FX65 loads the bytes that FX55 stored. -/
theorem storeThenLoadGivesRegistersBack : Obligations.StoreThenLoadGivesRegistersBack := by
  intro x s hwf hsafe
  obtain ⟨t, ht, hstored⟩ := exec_ldMemX_stores hwf hsafe
  refine ⟨t, ht, fun u hi hu => ?_⟩
  obtain ⟨r, hr, hloaded, -⟩ := bulkLoadReadsRegisters x u
  exact ⟨r, hr, fun k hk => by rw [hloaded k hk, hi, hu k hk, hstored k hk]⟩

theorem addrAt_zext16_addrAt (b : Word) (j k : Nat) : addrAt (zext16 (addrAt b j)) k = addrAt b (j + k) := by
  apply BitVec.eq_of_toNat_eq
  rw [toNat_addrAt, toNat_zext16, toNat_addrAt, toNat_addrAt]
  omega

/-- Settles O36: a fetch at the address of V[k] reads the bytes stored for V[k] and V[k + 1]. -/
theorem storeIsSeenByTheNextFetch : Obligations.StoreIsSeenByTheNextFetch := by
  intro x k s hwf hsafe hkx
  obtain ⟨t, ht, hstored⟩ := exec_ldMemX_stores hwf hsafe
  have hlt : k.val + 1 < 16 := Nat.lt_of_le_of_lt hkx x.isLt
  have hval : (k + 1).val = k.val + 1 := (Fin.val_add k 1).trans (Nat.mod_eq_of_lt hlt)
  have hnext : k + 1 ≤ x := Fin.le_def.2 (hval ▸ hkx)
  refine ⟨t, ht, ?_⟩
  rw [toNat_fetch, addrAt_zext16_addrAt, addrAt_zext16_addrAt, ← hval, hstored _ hnext, Nat.add_zero,
    hstored k (Fin.le_of_lt hkx)]

end Sys2Proof.Machine
end

section
/-! SUPPORT. The draw on every framebuffer, and drawn twice (spec/43_display.md R214 to R218). -/

namespace Sys2Proof.Machine

/-! ### One draw -/

theorem pixelUpdate_fst (p : Byte) (b : Bool) :
    (pixelUpdate p b).1 = if b then (if p = 0 then 1 else 0) else p := by
  unfold pixelUpdate
  split
  · split <;> rfl
  · rfl

theorem flagByte_eq_one_iff {c : Bool} : flagByte c = 1 ↔ c = true := by
  cases c <;> decide

theorem flagByte_binary (c : Bool) : flagByte c = 0 ∨ flagByte c = 1 := by
  cases c <;> decide

/-- DXYN, with the pixels and the flag it leaves named by `drawResult`. -/
theorem exec_drw_next (x y : Reg) (n : RowCount) (s : State) :
    ∃ t, exec (.drw x y n) s = .next t ∧ t.fb = (drawResult x y n s).1 ∧ t.reg vf = flagByte (drawResult x y n s).2 ∧
      FellThrough { regs := [vf], display := true } s t := by
  rw [exec_drw]
  obtain ⟨t, ht, hpix, hvf, hfell⟩ :=
    fallThrough_setFramebuffer_setFlag s (drawResult x y n s).1 (drawResult x y n s).2
  exact ⟨t, ht, framebuffer_ext hpix, hvf, hfell⟩

/-- The collision of R216, with the pixels named by their coordinates. -/
theorem drawResult_hit_coordinates (x y : Reg) (n : RowCount) (s : State) :
    (drawResult x y n s).2 = true ↔
      ∃ r c, r < n.val ∧ c < 8 ∧ (s.memRead (addrAt s.i r)).getLsbD (7 - c) = true ∧
        ∃ (py : Row) (px : Column), py.val = ((s.reg y).toNat + r) % 32 ∧ px.val = ((s.reg x).toNat + c) % 64 ∧
          s.pixel py px ≠ 0 := by
  simp only [drawResult_hit, spriteBit, ← eq_spriteLine_iff, ← eq_spriteColumn_iff, exists_eq_left, exists_and_left]

/-- Settles O38, from what the draw leaves at an addressed pixel, at another, and in the collision. -/
theorem drawUpdatesTheAddressedPixels : Obligations.DrawUpdatesTheAddressedPixels := by
  intro x y n s
  obtain ⟨t, ht, hfb, hvf, hfell⟩ := exec_drw_next x y n s
  refine ⟨t, ht, fun r c hr hc py px hpy hpx => ?_, fun py px hother => ?_, ?_, ?_, hfell⟩
  · obtain rfl := eq_spriteLine_iff.2 hpy
    obtain rfl := eq_spriteColumn_iff.2 hpx
    rw [State.pixel, hfb, drawResult_at x y n s hr hc, pixelUpdate_fst]
    rfl
  · rw [State.pixel, hfb]
    refine drawResult_other x y n s fun r c hr hc h => ?_
    exact hother r c hr hc ⟨eq_spriteLine_iff.1 h.1, eq_spriteColumn_iff.1 h.2⟩
  · rw [hvf]
    exact flagByte_binary _
  · rw [hvf, flagByte_eq_one_iff]
    exact drawResult_hit_coordinates x y n s

/-! ### Two draws -/

/-- A second update with the same bit restores a pixel of 0 or 1. -/
theorem pixelUpdate_twice {p : Byte} (hp : p = 0 ∨ p = 1) (b : Bool) :
    (pixelUpdate (pixelUpdate p b).1 b).1 = p := by
  obtain rfl | rfl := hp <;> cases b <;> rfl

/-- A set bit leaves lit the pixels that were off. -/
theorem pixelUpdate_set_ne_zero_iff (p : Byte) : (pixelUpdate p true).1 ≠ 0 ↔ p = 0 := by
  rw [pixelUpdate_fst, if_pos rfl]
  by_cases hp : p = 0
  · simp [hp]
  · simp only [hp, if_false, iff_false, not_not]

/-- The second draw of a sprite on the framebuffer its first draw left. -/
structure SecondDraw (x y : Reg) (n : RowCount) (s u : State) : Prop where
  fb : u.fb = (drawResult x y n s).1
  regX : u.reg x = s.reg x
  regY : u.reg y = s.reg y
  index : u.i = s.i
  bytes : ∀ r, r < n.val → u.memRead (addrAt s.i r) = s.memRead (addrAt s.i r)

section
variable {x y : Reg} {n : RowCount} {s u : State} (h : SecondDraw x y n s u)
include h

theorem SecondDraw.pixel_at {r c : Nat} (hr : r < n.val) (hc : c < 8) :
    u.pixel (spriteLine (s.reg y) r) (spriteColumn (s.reg x) c) =
      (pixelUpdate (s.pixel (spriteLine (s.reg y) r) (spriteColumn (s.reg x) c))
        (spriteBit (s.memRead (addrAt s.i r)) c)).1 := by
  rw [State.pixel, h.fb, drawResult_at x y n s hr hc]

theorem SecondDraw.restores (hbin : ∀ py px, s.pixel py px = 0 ∨ s.pixel py px = 1) :
    (drawResult x y n u).1 = s.fb := by
  refine framebuffer_ext fun py px => ?_
  by_cases haddr : ∃ r c, r < n.val ∧ c < 8 ∧ py = spriteLine (s.reg y) r ∧ px = spriteColumn (s.reg x) c
  · obtain ⟨r, c, hr, hc, rfl, rfl⟩ := haddr
    have hat := drawResult_at x y n u hr hc
    rw [h.regX, h.regY, h.index, h.bytes r hr, h.pixel_at hr hc, pixelUpdate_twice (hbin _ _)] at hat
    exact hat
  · have hother (r c : Nat) (hr : r < n.val) (hc : c < 8) :
        ¬(py = spriteLine (s.reg y) r ∧ px = spriteColumn (s.reg x) c) := fun he => haddr ⟨r, c, hr, hc, he⟩
    rw [drawResult_other x y n u (by rwa [h.regX, h.regY]), State.pixel, h.fb, drawResult_other x y n s hother]
    rfl

/-- The second draw collides where a set bit fell on a pixel that was off before the first. -/
theorem SecondDraw.hit : (drawResult x y n u).2 = true ↔
    ∃ r c, r < n.val ∧ c < 8 ∧ spriteBit (s.memRead (addrAt s.i r)) c = true ∧
      s.pixel (spriteLine (s.reg y) r) (spriteColumn (s.reg x) c) = 0 := by
  rw [drawResult_hit, h.regX, h.regY, h.index]
  refine exists_congr fun r => exists_congr fun c => and_congr_right fun hr => and_congr_right fun hc => ?_
  rw [h.bytes r hr, h.pixel_at hr hc]
  refine and_congr_right fun hbit => ?_
  rw [hbit, pixelUpdate_set_ne_zero_iff]

end

theorem ne_zero_iff_spriteBit (b : Byte) : b ≠ 0 ↔ ∃ c, c < 8 ∧ spriteBit b c = true := by
  constructor
  · intro hne
    by_contra hnone
    refine hne (BitVec.eq_of_getLsbD_eq fun k hk => ?_)
    have hbit : spriteBit b (7 - k) ≠ true := fun hb => hnone ⟨7 - k, by omega, hb⟩
    rw [spriteBit, show 7 - (7 - k) = k by omega] at hbit
    simpa using hbit
  · rintro ⟨c, -, hb⟩ rfl
    simp [spriteBit] at hb

/-- Settles O40: the second draw undoes the first, and collides exactly where the first did not. -/
theorem drawingTwiceRestoresTheScreen : Obligations.DrawingTwiceRestoresTheScreen := by
  intro x y n s hbin
  obtain ⟨t, ht, hfb, hvf, -⟩ := exec_drw_next x y n s
  refine ⟨t, ht, fun u hufb hux huy hui hubytes => ?_⟩
  have hsecond : SecondDraw x y n s u := ⟨hufb.trans hfb, hux, huy, hui, hubytes⟩
  obtain ⟨q, hq, hqfb, hqvf, -⟩ := exec_drw_next x y n u
  refine ⟨q, hq, hqfb.trans (hsecond.restores hbin), ?_, fun hclear => ?_⟩
  · rw [hqvf, flagByte_eq_one_iff, hsecond.hit]
    simp only [spriteBit, ← eq_spriteLine_iff, ← eq_spriteColumn_iff, exists_eq_left, exists_and_left]
  · have hnohit : ¬ (drawResult x y n s).2 = true := by
      rw [← flagByte_eq_one_iff, ← hvf, hclear]
      decide
    rw [hqvf, flagByte_eq_one_iff, hsecond.hit]
    simp only [ne_zero_iff_spriteBit]
    rw [drawResult_hit] at hnohit
    constructor
    · rintro ⟨r, c, hr, hc, hbit, -⟩
      exact ⟨r, hr, c, hc, hbit⟩
    · rintro ⟨r, hr, c, hc, hbit⟩
      exact ⟨r, c, hr, hc, hbit, by_contra fun hlit => hnohit ⟨r, c, hr, hc, hbit, hlit⟩⟩

end Sys2Proof.Machine
end

section
/-! SUPPORT. What an instruction does not depend on: memory, ST and the framebuffer (spec/20_memory.md R58, spec/10_state.md
R36). -/

namespace Sys2Proof.Machine

/-! ### Updates that an instruction commutes with -/

/-- The next state of an outcome, updated. -/
def mapNext (g : State → State) : Host.Outcome State Fault Refusal → Host.Outcome State Fault Refusal
  | .next s => .next (g s)
  | .fault f => .fault f
  | .refused r => .refused r

/-- `g` updates nothing that RET, CALL, FX0A and the check of a store read, and commutes with what they write. -/
structure Inert (g : State → State) : Prop where
  pc : ∀ s, (g s).pc = s.pc
  sp : ∀ s, (g s).sp = s.sp
  stack : ∀ s, (g s).stack = s.stack
  keys : ∀ s, (g s).keys = s.keys
  index : ∀ s, (g s).i = s.i
  policy : ∀ s, (g s).policy = s.policy
  setReg : ∀ s x b, (g s).setReg x b = g (s.setReg x b)
  advances : ∀ s, fallThrough (g s) = mapNext g (fallThrough s)
  pops : ∀ w sp s, transfer w { g s with sp := sp } = mapNext g (transfer w { s with sp := sp })
  pushes : ∀ w stack sp s,
    transfer w { g s with stack := stack, sp := sp } = mapNext g (transfer w { s with stack := stack, sp := sp })
  holds : ∀ s, holdForKey (g s) = mapNext g (holdForKey s)
  raises : ∀ u s, raiseFatal u (g s) = mapNext g (raiseFatal u s)

theorem inert_mem (m : Memory) : Inert fun s => { s with mem := m } := by
  constructor <;> intros <;> rfl

theorem inert_st (b : Byte) : Inert fun s => { s with st := b } := by
  constructor <;> intros <;> rfl

theorem inert_fb (f : Framebuffer) : Inert fun s => { s with fb := f } := by
  constructor <;> intros <;> rfl

/-- A sequence of byte writes commutes with an update that each of them commutes with. -/
theorem storeFrom_update {g : State → State} (hmem : ∀ s a b, (g s).memWrite a b = g (s.memWrite a b))
    (b : Word) (k : Nat) (bytes : List Byte) (s : State) : storeFrom b k bytes (g s) = g (storeFrom b k bytes s) := by
  induction bytes generalizing k s with
  | nil => rfl
  | cons v vs ih => rw [storeFrom, hmem, ih, storeFrom]

section
variable {g : State → State} (hg : Inert g)
include hg

theorem Inert.exec_ret (s : State) : exec .ret (g s) = mapNext g (exec .ret s) := by
  rw [Machine.exec_ret, Machine.exec_ret]
  by_cases h : s.sp.val = 0
  · rw [execRet_empty h, execRet_empty (by rwa [hg.sp]), hg.pc, hg.raises]
  · obtain ⟨k, hk⟩ : ∃ k : Fin 16, s.sp.val = k.val + 1 := ⟨⟨s.sp.val - 1, by omega⟩, by simp only; omega⟩
    rw [execRet_entry k hk, execRet_entry k (by rwa [hg.sp])]
    refine (hg.pops ..).trans ?_
    rw [hg.stack]

theorem Inert.exec_call (nnn : Addr) (s : State) : exec (.call nnn) (g s) = mapNext g (exec (.call nnn) s) := by
  rw [Machine.exec_call, Machine.exec_call]
  by_cases h : s.sp.val = 16
  · rw [execCall_full h, execCall_full (by rwa [hg.sp]), hg.pc, hg.raises]
  · obtain ⟨k, hk⟩ : ∃ k : Fin 16, s.sp.val = k.val := ⟨⟨s.sp.val, by omega⟩, rfl⟩
    rw [execCall_room k hk, execCall_room k (by rwa [hg.sp])]
    refine (hg.pushes ..).trans ?_
    rw [hg.stack, hg.pc]

theorem Inert.exec_ldXK (x : Reg) (s : State) : exec (.ldXK x) (g s) = mapNext g (exec (.ldXK x) s) := by
  have hkeys : (g s).leastPressed = s.leastPressed := leastPressed_congr (hg.keys s)
  cases h : s.leastPressed with
  | some k => rw [exec_ldXK_key h, exec_ldXK_key (hkeys.trans h), hg.setReg, hg.advances]
  | none =>
    rw [exec_ldXK_hold (leastPressed_eq_none.1 h), exec_ldXK_hold (leastPressed_eq_none.1 (hkeys.trans h)), hg.holds]

theorem Inert.storeSequence (hmem : ∀ s a b, (g s).memWrite a b = g (s.memWrite a b)) {finish : State → State}
    (hfinish : ∀ s, finish (g s) = g (finish s)) (w : Word) (bytes : List Byte) (s : State) :
    storeSequence w bytes finish (g s) = mapNext g (storeSequence w bytes finish s) := by
  have hcheck : fontViolation (g s) bytes.length = fontViolation s bytes.length := by
    rw [fontViolation, fontViolation, hg.policy, hg.index]
  cases h : fontViolation s bytes.length with
  | some a => rw [storeSequence_fatal h, storeSequence_fatal (hcheck.trans h), hg.pc, hg.raises]
  | none =>
    rw [storeSequence_done h, storeSequence_done (hcheck.trans h), hg.index, storeFrom_update hmem, hfinish, hg.advances]

end

theorem bumpIndex_mem_update (x : Reg) (m : Memory) (s : State) :
    bumpIndex x { s with mem := m } = { bumpIndex x s with mem := m } := by
  unfold bumpIndex
  split <;> rfl

theorem bumpIndex_st_update (x : Reg) (b : Byte) (s : State) :
    bumpIndex x { s with st := b } = { bumpIndex x s with st := b } := by
  unfold bumpIndex
  split <;> rfl

theorem bumpIndex_fb_update (x : Reg) (f : Framebuffer) (s : State) :
    bumpIndex x { s with fb := f } = { bumpIndex x s with fb := f } := by
  unfold bumpIndex
  split <;> rfl

theorem memWrite_st_update (b : Byte) (s : State) (a : Addr) (v : Byte) :
    State.memWrite { s with st := b } a v = { s.memWrite a v with st := b } := by
  unfold State.memWrite
  split <;> rfl

theorem memWrite_fb_update (f : Framebuffer) (s : State) (a : Addr) (v : Byte) :
    State.memWrite { s with fb := f } a v = { s.memWrite a v with fb := f } := by
  unfold State.memWrite
  split <;> rfl

/-! ### Instructions that ignore memory, ST and the framebuffer -/

/-- Memory apart from the fetch: all but DXYN, FX33, FX55 and FX65. -/
theorem exec_mem_update (m : Memory) : ∀ (i : Instr) (s : State), usesMemory i = false →
    exec i { s with mem := m } = mapNext (fun t => { t with mem := m }) (exec i s)
  | .ret, s, _ => (inert_mem m).exec_ret s
  | .call nnn, s, _ => (inert_mem m).exec_call nnn s
  | .ldXK x, s, _ => (inert_mem m).exec_ldXK x s
  | .cls, _, _ | .sys _, _, _ | .jp _, _, _ | .jpV0 _, _, _ | .seImm .., _, _ | .sneImm .., _, _ | .seReg .., _, _
  | .sneReg .., _, _ | .skp _, _, _ | .sknp _, _, _ | .ldImm .., _, _ | .addImm .., _, _ | .ldReg .., _, _
  | .orReg .., _, _ | .andReg .., _, _ | .xorReg .., _, _ | .addReg .., _, _ | .sub .., _, _ | .shr .., _, _
  | .subn .., _, _ | .shl .., _, _ | .ldI _, _, _ | .rnd .., _, _ | .ldXDt _, _, _ | .ldDtX _, _, _ | .ldStX _, _, _
  | .addIX _, _, _ | .ldFX _, _, _ => rfl

/-- ST: all but FX18, which overwrites it. -/
theorem exec_st_update (b : Byte) : ∀ (i : Instr) (s : State), (∀ x, i ≠ .ldStX x) →
    exec i { s with st := b } = mapNext (fun t => { t with st := b }) (exec i s)
  | .ldStX x, _, hi => absurd rfl (hi x)
  | .ret, s, _ => (inert_st b).exec_ret s
  | .call nnn, s, _ => (inert_st b).exec_call nnn s
  | .ldXK x, s, _ => (inert_st b).exec_ldXK x s
  | .ldBX x, s, _ => (inert_st b).storeSequence (memWrite_st_update b) (fun _ => rfl) _ (bcdDigits (s.reg x)) s
  | .ldMemX x, s, _ => (inert_st b).storeSequence (memWrite_st_update b) (bumpIndex_st_update x b) _ (s.regsUpTo x) s
  | .ldXMem x, s, _ => congrArg fallThrough (bumpIndex_st_update x b (s.loadRegs x))
  | .cls, _, _ | .sys _, _, _ | .jp _, _, _ | .jpV0 _, _, _ | .seImm .., _, _ | .sneImm .., _, _ | .seReg .., _, _
  | .sneReg .., _, _ | .skp _, _, _ | .sknp _, _, _ | .ldImm .., _, _ | .addImm .., _, _ | .ldReg .., _, _
  | .orReg .., _, _ | .andReg .., _, _ | .xorReg .., _, _ | .addReg .., _, _ | .sub .., _, _ | .shr .., _, _
  | .subn .., _, _ | .shl .., _, _ | .ldI _, _, _ | .rnd .., _, _ | .drw .., _, _ | .ldXDt _, _, _ | .ldDtX _, _, _
  | .addIX _, _, _ | .ldFX _, _, _ => rfl

/-- The framebuffer: all but CLS, which overwrites it, and DXYN. -/
theorem exec_fb_update (f : Framebuffer) : ∀ (i : Instr) (s : State), i ≠ .cls → (∀ x y n, i ≠ .drw x y n) →
    exec i { s with fb := f } = mapNext (fun t => { t with fb := f }) (exec i s)
  | .cls, _, hi, _ => absurd rfl hi
  | .drw x y n, _, _, hi => absurd rfl (hi x y n)
  | .ret, s, _, _ => (inert_fb f).exec_ret s
  | .call nnn, s, _, _ => (inert_fb f).exec_call nnn s
  | .ldXK x, s, _, _ => (inert_fb f).exec_ldXK x s
  | .ldBX x, s, _, _ => (inert_fb f).storeSequence (memWrite_fb_update f) (fun _ => rfl) _ (bcdDigits (s.reg x)) s
  | .ldMemX x, s, _, _ => (inert_fb f).storeSequence (memWrite_fb_update f) (bumpIndex_fb_update x f) _ (s.regsUpTo x) s
  | .ldXMem x, s, _, _ => congrArg fallThrough (bumpIndex_fb_update x f (s.loadRegs x))
  | .sys _, _, _, _ | .jp _, _, _, _ | .jpV0 _, _, _, _ | .seImm .., _, _, _ | .sneImm .., _, _, _ | .seReg .., _, _, _
  | .sneReg .., _, _, _ | .skp _, _, _, _ | .sknp _, _, _, _ | .ldImm .., _, _, _ | .addImm .., _, _, _
  | .ldReg .., _, _, _ | .orReg .., _, _, _ | .andReg .., _, _, _ | .xorReg .., _, _, _ | .addReg .., _, _, _
  | .sub .., _, _, _ | .shr .., _, _, _ | .subn .., _, _, _ | .shl .., _, _, _ | .ldI _, _, _, _ | .rnd .., _, _, _
  | .ldXDt _, _, _, _ | .ldDtX _, _, _, _ | .ldStX _, _, _, _ | .addIX _, _, _, _ | .ldFX _, _, _, _ => rfl

/-- Settles O52, by the update of memory. -/
theorem otherInstructionsIgnoreMemory : Obligations.OtherInstructionsIgnoreMemory := by
  intro i s t m hi h
  rw [exec_mem_update m i s hi, h]
  rfl

theorem exec_sound_unread {i : Instr} {s t : State} (h : exec i s = .next t) (b : Byte) :
    ∃ b', exec i { s with st := b } = .next { t with st := b' } := by
  by_cases hi : ∃ x, i = .ldStX x
  · obtain ⟨x, rfl⟩ := hi
    exact ⟨t.st, h⟩
  · exact ⟨b, by rw [exec_st_update b i s (not_exists.1 hi), h]; rfl⟩

theorem exec_screen_unread {i : Instr} {s t : State} (h : exec i s = .next t) (hi : ∀ x y n, i ≠ .drw x y n)
    (f : Framebuffer) : ∃ f', exec i { s with fb := f } = .next { t with fb := f' } := by
  by_cases hcls : i = .cls
  · subst hcls
    exact ⟨t.fb, h⟩
  · exact ⟨f, by rw [exec_fb_update f i s hcls hi, h]; rfl⟩

/-- VF is the last write of DXYN, so a second write of it hides the collision. -/
theorem exec_drw_screen {x y : Reg} {n : RowCount} {s t : State} (h : exec (.drw x y n) s = .next t) (f : Framebuffer) :
    ∃ f' c, exec (.drw x y n) { s with fb := f } = .next { t.setReg vf c with fb := f' } := by
  rw [exec_drw, fallThrough_eq] at h
  obtain rfl := Host.Outcome.next.inj h
  refine ⟨(drawResult x y n { s with fb := f }).1, flagByte (drawResult x y n { s with fb := f }).2, ?_⟩
  rw [exec_drw, fallThrough_eq]
  simp [State.setReg, State.setFlag, State.setPc, State.setStatus]

/-- Settles O54, part by part. -/
theorem soundTimerAndScreenAreNotReadable : Obligations.SoundTimerAndScreenAreNotReadable := by
  refine fun i s t h => ⟨exec_sound_unread h, fun f hi => exec_screen_unread h hi f, ?_⟩
  rintro f ⟨x, y, n, rfl⟩
  exact exec_drw_screen h f

/-! ### The readers of memory (R58) -/

theorem bytesAt_congr {s u : State} {b : Word} {n : Nat}
    (h : ∀ k, k < n → u.memRead (addrAt b k) = s.memRead (addrAt b k)) : u.bytesAt b n = s.bytesAt b n :=
  List.map_congr_left fun k hk => h k (List.mem_range.1 hk)

theorem exec_drw_mem_update {x y : Reg} {n : RowCount} {s : State} {m : Memory}
    (h : ∀ k, k < n.val → State.memRead { s with mem := m } (addrAt s.i k) = s.memRead (addrAt s.i k)) :
    exec (.drw x y n) { s with mem := m } = mapNext (fun t => { t with mem := m }) (exec (.drw x y n) s) := by
  have hdraw : drawResult x y n { s with mem := m } = drawResult x y n s :=
    congrArg (drawRows (s.reg x) (s.reg y) 0 · (s.fb, false)) (bytesAt_congr h)
  rw [exec_drw, hdraw]
  rfl

theorem loadRegs_mem_update {x : Reg} {s : State} {m : Memory}
    (h : ∀ k, k < x.val + 1 → State.memRead { s with mem := m } (addrAt s.i k) = s.memRead (addrAt s.i k)) :
    State.loadRegs { s with mem := m } x = { s.loadRegs x with mem := m } := by
  have hv : (State.loadRegs { s with mem := m } x).v = (s.loadRegs x).v := by
    refine Vector.ext fun k hk => ?_
    simp only [State.loadRegs, Vector.getElem_ofFn]
    split
    · next hle => rw [h k (Nat.lt_succ_of_le hle)]
    · rfl
  calc State.loadRegs { s with mem := m } x
    _ = { s with v := (State.loadRegs { s with mem := m } x).v, mem := m } := rfl
    _ = { s.loadRegs x with mem := m } := by rw [hv]; rfl

/-- Settles O53: the bytes at `I` are all that the two read. -/
theorem memoryReadersReadTheirBytesOnly : Obligations.MemoryReadersReadTheirBytesOnly := by
  rintro i n s t m hi hbytes h
  have hkept : t.mem = s.mem := by
    obtain ⟨s', p, l, u, hw, rfl⟩ := exec_writes h
    obtain hm | ⟨⟨x, hx⟩, -⟩ := hw.mem_cases
    · exact hm
    · obtain ⟨_, _, _, rfl, -⟩ | ⟨_, rfl, -⟩ := hi <;> simp at hx
  refine ⟨hkept, ?_⟩
  obtain ⟨x, y, r, rfl, rfl⟩ | ⟨x, rfl, rfl⟩ := hi
  · rw [exec_drw_mem_update hbytes, h]
    rfl
  · rw [exec_ldXMem, loadRegs_mem_update hbytes, bumpIndex_mem_update, (inert_mem m).advances, ← exec_ldXMem, h]
    rfl

end Sys2Proof.Machine
end

section
/-! SUPPORT. Launches and the host's transactions (spec/10_state.md section 9, spec/70_reset_and_hazards.md R351 to R364),
and the end of a run (R368). -/

namespace Sys2Proof.Machine

/-! ### The memory of a launch (R351, R37) -/

theorem read_placeFont_outside {k a : Nat} (bs : List Byte) {m : Memory} (hwf : Memory.wf m = true)
    (hlen : k + bs.length ≤ 0x1000) (ha : a < k ∨ k + bs.length ≤ a) :
    Memory.read (placeFont k bs m) a = Memory.read m a := by
  induction bs generalizing k m with
  | nil => rfl
  | cons b bs ih =>
    rw [List.length_cons] at hlen ha
    rw [placeFont, ih (wf_write hwf (by omega) b) (by omega) (by omega), read_write hwf, if_neg (by omega)]

theorem read_placeFont {k j : Nat} {bs : List Byte} {m : Memory} (hwf : Memory.wf m = true)
    (hlen : k + bs.length ≤ 0x1000) (hj : j < bs.length) : Memory.read (placeFont k bs m) (k + j) = bs[j] := by
  induction bs generalizing k m j with
  | nil => cases hj
  | cons b bs ih =>
    rw [List.length_cons] at hlen hj
    have hwf' := wf_write hwf (show k < 0x1000 by omega) b
    cases j with
    | zero =>
      show Memory.read (placeFont (k + 1) bs (Memory.write m k b)) k = b
      rw [read_placeFont_outside bs hwf' (by omega) (by omega), read_write hwf, if_pos rfl]
    | succ j =>
      rw [placeFont, show k + (j + 1) = k + 1 + j by omega, ih hwf' (by omega) (by omega)]
      rfl

/-- One pair of `mem_init` stored. -/
def placeCell (m : Memory) (c : Addr × Byte) : Memory := if isFontAddr c.1 then m else Memory.write m c.1.toNat c.2

theorem placeMemInit_cons (c : Addr × Byte) (cells : List (Addr × Byte)) (m : Memory) :
    placeMemInit (c :: cells) m = placeMemInit cells (placeCell m c) := rfl

theorem wf_placeCell {m : Memory} (hwf : Memory.wf m = true) (c : Addr × Byte) : Memory.wf (placeCell m c) = true := by
  unfold placeCell
  split
  · exact hwf
  · exact wf_write hwf (toNat_lt_4096 c.1) c.2

theorem read_placeCell_self {m : Memory} (hwf : Memory.wf m = true) {c : Addr × Byte} (hc : 0x050 ≤ c.1.toNat) :
    Memory.read (placeCell m c) c.1.toNat = c.2 := by
  rw [placeCell, isFontAddr_eq_false.2 hc, if_neg Bool.false_ne_true, read_write hwf, if_pos rfl]

/-- A pair with another address, or aimed at the font region, leaves the byte. -/
theorem read_placeCell_of_ne {m : Memory} (hwf : Memory.wf m = true) {c : Addr × Byte} {a : Addr}
    (ha : c.1.toNat < 0x050 ∨ c.1 ≠ a) : Memory.read (placeCell m c) a.toNat = Memory.read m a.toNat := by
  unfold placeCell
  split
  · rfl
  · next hfont =>
    have hne : c.1 ≠ a := ha.resolve_left fun h => hfont (isFontAddr_eq_true.2 h)
    rw [read_write hwf, if_neg fun e => hne (BitVec.eq_of_toNat_eq e).symm]

theorem read_placeMemInit_of_ne {cells : List (Addr × Byte)} {m : Memory} (hwf : Memory.wf m = true) {a : Addr}
    (ha : ∀ c ∈ cells, c.1.toNat < 0x050 ∨ c.1 ≠ a) :
    Memory.read (placeMemInit cells m) a.toNat = Memory.read m a.toNat := by
  induction cells generalizing m with
  | nil => rfl
  | cons c cells ih =>
    rw [List.forall_mem_cons] at ha
    rw [placeMemInit_cons, ih (wf_placeCell hwf c) ha.2, read_placeCell_of_ne hwf ha.1]

/-- Where every pair for an address holds the same byte, that byte is left, if there is one or it was there before. -/
theorem read_placeMemInit {cells : List (Addr × Byte)} {m : Memory} (hwf : Memory.wf m = true) {a : Addr} {b : Byte}
    (hfont : 0x050 ≤ a.toNat) (hall : ∀ c ∈ cells, c.1 = a → c.2 = b)
    (hb : (a, b) ∈ cells ∨ Memory.read m a.toNat = b) : Memory.read (placeMemInit cells m) a.toNat = b := by
  induction cells generalizing m with
  | nil => exact hb.resolve_left List.not_mem_nil
  | cons c cells ih =>
    rw [List.forall_mem_cons] at hall
    rw [placeMemInit_cons]
    refine ih (wf_placeCell hwf c) hall.2 ?_
    by_cases hc : c.1 = a
    · subst hc
      exact .inr ((read_placeCell_self hwf hfont).trans (hall.1 rfl))
    · rw [read_placeCell_of_ne hwf (.inr hc), List.mem_cons] at *
      exact hb.imp_left fun h => h.resolve_left fun e => hc (congrArg Prod.fst e).symm

section
variable (p : LaunchParams)

theorem wf_font : Memory.wf (placeFont 0 p.font.toList []) = true := wf_placeFont rfl (by simp)

theorem memRead_resetWith (a : Addr) :
    (State.resetWith p).memRead a = Memory.read (placeMemInit p.memInit (placeFont 0 p.font.toList [])) a.toNat := rfl

theorem memRead_resetWith_font (k : Fin 80) : (State.resetWith p).memRead (BitVec.ofNat 12 k.val) = p.font[k] := by
  have hk : (BitVec.ofNat 12 k.val).toNat = k.val := by
    rw [BitVec.toNat_ofNat]
    omega
  rw [memRead_resetWith, read_placeMemInit_of_ne (wf_font p), hk]
  · have hread := read_placeFont (k := 0) (j := k.val) (bs := p.font.toList) (m := []) rfl (by simp) (by simp)
    rw [Nat.zero_add] at hread
    simpa using hread
  · intro c _
    by_cases hc : c.1 = BitVec.ofNat 12 k.val
    · exact .inl (by rw [hc, hk]; exact k.isLt)
    · exact .inr hc

theorem read_font_outside {a : Addr} (ha : 0x050 ≤ a.toNat) :
    Memory.read (placeFont 0 p.font.toList []) a.toNat = 0 := by
  rw [read_placeFont_outside _ rfl (by simp) (.inr (by simpa using ha))]
  exact List.getD_eq_default _ _ ha

end

/-- Settles O57, the memory by what it reads and the rest by the fields of the launch. -/
theorem resetBuildsTheLaunchState : Obligations.ResetBuildsTheLaunchState := by
  refine ⟨fun p => ⟨rfl, rfl, rfl, memRead_resetWith_font p, fun a ha hnone => ?_, fun a b ha hmem hall => ?_,
    pixelOf_clear, fun _ => rfl, rfl, rfl, rfl, rfl⟩, reset_eq_resetWith⟩
  · rw [memRead_resetWith, read_placeMemInit_of_ne (wf_font p) fun c hc => .inr (hnone c hc), read_font_outside p ha]
  · rw [memRead_resetWith]
    exact read_placeMemInit (wf_font p) ha hall (.inl hmem)

/-! ### Ticks, loads and keys (R361, R363, R364) -/

theorem transact_timerTick (s : State) : transact .timerTick s = .next s.timerTick := rfl

theorem toNat_decrementTimer (t : Byte) : (decrementTimer t).toNat = t.toNat - 1 := by
  unfold decrementTimer
  split
  · rw [BitVec.toNat_sub]
    simp
    omega
  · simp
    omega

/-- A tick writes the timers alone. -/
theorem Unchanged.timerTick (s : State) : Unchanged { delay := true, sound := true } s s.timerTick :=
  { Unchanged.refl _ s with
    delay := nofun
    sound := nofun }

/-- Settles O58: each timer is decremented by the clamped decrement. -/
theorem timerTickClampsAtZero : Obligations.TimerTickClampsAtZero := fun s =>
  ⟨_, transact_timerTick s, toNat_decrementTimer s.dt, toNat_decrementTimer s.st, rfl, rfl, .timerTick s⟩

theorem load_low {s : State} {a : Addr} (b : Byte) (ha : a.toNat < 0x200) :
    s.load a b = .refused (.loadBelowProgram a) := if_pos ha

theorem load_late {s : State} {a : Addr} (b : Byte) (ha : 0x200 ≤ a.toNat) (hs : s.status ≠ none) :
    s.load a b = .refused (.loadAfterFirstStep a) := by
  rw [State.load, if_neg (Nat.not_lt.2 ha), if_pos (Option.isSome_iff_ne_none.2 hs)]

theorem load_done {s : State} {a : Addr} (b : Byte) (ha : 0x200 ≤ a.toNat) (hs : s.status = none) :
    s.load a b = .next (s.poke a b) := by
  rw [State.load, if_neg (Nat.not_lt.2 ha), hs]
  rfl

/-- The byte poked is in the footprint. -/
theorem Unchanged.poke {f : Footprint} {s : State} (hwf : Memory.wf s.mem = true) {a : Addr} (ha : a ∈ f.memory)
    (b : Byte) : Unchanged f s (s.poke a b) :=
  { Unchanged.refl f s with
    memory := fun c hc => by
      have hne : c ≠ a := by
        rintro rfl
        exact hc ha
      rw [memRead_poke hwf, if_neg hne] }

/-- Settles O59, case by case. -/
theorem loadAndSetKeysFollowTheirRules : Obligations.LoadAndSetKeysFollowTheirRules := by
  refine fun s a b k hwf => ⟨fun ha hs => ?_, load_low b, load_late b, rfl⟩
  exact ⟨_, load_done b ha hs, by rw [memRead_poke hwf, if_pos rfl], rfl, hs, .poke hwf (by simp) b⟩

/-! ### The end of a run (R368) -/

/-- Settles O55: the jump goes to the `pc` it is at. -/
theorem selfJumpStaysThere : Obligations.SelfJumpStaysThere := by
  rintro s hh ⟨nnn, hd, hpc⟩
  constructor
  · rw [step_of_decode_instr hh hd, exec_jp, hpc]
    rfl
  · exact ⟨nnn, hd, hpc⟩

theorem transact_halted {a : Transaction} {s t : State} (hs : s.halted = false) (ha : a ≠ .step)
    (h : transact a s = .next t) : t.halted = false := by
  cases a with
  | reset p => cases h; rfl
  | load a b => rw [load_eq_next h]; exact hs
  | setKeys k => cases h; exact hs
  | timerTick => cases h; exact hs
  | step => exact absurd rfl ha
  | read => cases h; exact hs

theorem JustReset.halted {r : State} (h : JustReset r) : r.halted = false := by
  obtain ⟨p, rfl⟩ | ⟨p, s, -, h⟩ := h
  · rfl
  · cases h
    rfl

theorem GoodRun.halted {s : State} (h : GoodRun s) : s.halted = false := by
  induction h with
  | launch hr => exact hr.halted
  | host a _ ha ht ih => exact transact_halted ih ha ht
  | step u _ ht hu hg _ =>
    obtain ⟨v, hv, -, hgood⟩ := step_status ht
    obtain rfl := Option.some.inj (hu.symm.trans hv)
    simpa [hg] using hgood

/-- Settles O56, by induction on the run. -/
theorem goodRunsAreNeverHalted : Obligations.GoodRunsAreNeverHalted := fun _ => GoodRun.halted

theorem NormalEnd.goodRun {r s : State} {boot run : List Transaction} (h : NormalEnd r boot run s) : GoodRun s :=
  (GoodRun.launch h.launch).runGood h.reached

/-- A longer run would hold an earlier state at a jump to itself. -/
theorem NormalEnd.unique {r s t : State} {boot run rest : List Transaction} (hs : NormalEnd r boot run s)
    (ht : NormalEnd r boot (run ++ rest) t) : rest = [] ∧ t = s := by
  have hrest : rest = [] := by
    by_contra hne
    exact ht.first run rest s rfl hne hs.reached ⟨hs.notHalted, hs.atSelfJump⟩
  subst hrest
  have hreached := ht.reached
  rw [List.append_nil, hs.reached] at hreached
  exact ⟨rfl, (Option.some.inj hreached).symm⟩

/-- After the loading and `n` transactions of the run, the block is at a jump to itself. -/
def SelfJumpAfter (r : State) (boot run : List Transaction) (n : Nat) : Prop :=
  ∃ t, runGood r (boot ++ run.take n) = some t ∧ AtSelfJump t

/-- The least number of transactions that lead to a jump to itself ends the run. -/
theorem NormalEnd.of_least {r : State} {boot run : List Transaction} {n : Nat} (hr : JustReset r)
    (hload : ∀ a ∈ boot, a.duringLoading = true) (hlast : ∀ a, boot.getLast? = some a → a.isLoad = true)
    (hrun : ∀ a ∈ run, a.duringRun = true) (hn : SelfJumpAfter r boot run n)
    (hleast : ∀ m, m < n → ¬ SelfJumpAfter r boot run m) : ∃ t, NormalEnd r boot (run.take n) t := by
  obtain ⟨t, ht, hjump⟩ := hn
  refine ⟨t, hr, hload, hlast, fun a ha => hrun a (List.mem_of_mem_take ha), ht,
    ((GoodRun.launch hr).runGood ht).halted, hjump, ?_⟩
  rintro earlier rest u hsplit hrest hu ⟨-, hearly⟩
  have htake : earlier = run.take earlier.length := by
    have hinit : earlier <+: run := (hsplit ▸ List.prefix_append earlier rest).trans (List.take_prefix n run)
    exact List.prefix_iff_eq_take.1 hinit
  refine hleast earlier.length ?_ ⟨u, htake ▸ hu, hearly⟩
  have hlen := congrArg List.length hsplit
  have hpos := List.length_pos_iff.2 hrest
  rw [List.length_take, List.length_append] at hlen
  omega

/-- Settles O60: a self-jump ends the run there or, by the least number of transactions to one, before. -/
theorem normalEndIsTheFirstSelfJump : Obligations.NormalEndIsTheFirstSelfJump := by
  refine ⟨fun r s boot run h => ⟨h.goodRun, fun rest t => h.unique⟩, ?_⟩
  intro r s boot run hr hload hlast hrun hs hjump
  have hex : ∃ n, SelfJumpAfter r boot run n := ⟨run.length, s, by rwa [List.take_length], hjump⟩
  classical
  obtain ⟨t, ht⟩ := NormalEnd.of_least hr hload hlast hrun (Nat.find_spec hex) fun m => Nat.find_min hex
  exact ⟨_, _, t, (List.take_append_drop (Nat.find hex) run).symm, ht⟩

end Sys2Proof.Machine
end
